-- ==== Sys2Proof/Word.lean ====
section
/-! DEFINITION. The byte of the hardware. Bit 0 is the least significant bit of every value (00_scope.md R6). -/

namespace Sys2Proof

/-- One byte: the smallest addressable unit (20_memory.md R50). -/
abbrev Byte := BitVec 8

end Sys2Proof
end

