-- ==== Sys2Proof/Syntax.lean ====
section
/-! DEFINITION. The instruction as syntax: the modes and sizes that decoding depends on, the prefixes, and one
constructor per row of spec/opcode_table.json. Nothing here gives a meaning. -/

namespace Sys2Proof

/-- The five operating modes (10_state.md R28). -/
inductive Mode where
  | real | prot | v86 | compat | long64
deriving DecidableEq, Repr

/-- `csD`, the default operand and address size of the non-64-bit modes (10_state.md R28). -/
inductive CodeSize where
  | d16 | d32
deriving DecidableEq, Repr

/-- The other of {16, 32} (30_encoding.md R86, R87). -/
def CodeSize.other : CodeSize → CodeSize
  | .d16 => .d32
  | .d32 => .d16

/-- The address size `A` of an instruction (30_encoding.md R86). -/
inductive AddrSize where
  | a16 | a32 | a64
deriving DecidableEq, Repr

/-- `A` in bits. -/
def AddrSize.bits : AddrSize → Nat
  | .a16 => 16
  | .a32 => 32
  | .a64 => 64

/-- The operand size `N` of an instruction (30_encoding.md R87). -/
inductive OpSize where
  | b8 | b16 | b32 | b64
deriving DecidableEq, Repr

/-- `N` in bits. -/
def OpSize.bits : OpSize → Nat
  | .b8 => 8
  | .b16 => 16
  | .b32 => 32
  | .b64 => 64

/-- `n = N / 8`, the operand size in bytes (00_scope.md R7). -/
def OpSize.bytes : OpSize → Nat
  | .b8 => 1
  | .b16 => 2
  | .b32 => 4
  | .b64 => 8

/-- The condition of a repeat prefix (41_rep_scas.md R131). -/
inductive Rep where
  | repE | repNE
deriving DecidableEq, Repr

/-- The segment register that a segment-override prefix names (30_encoding.md R84). -/
inductive SegReg where
  | es | cs | ss | ds | fs | gs
deriving DecidableEq, Repr

/-- A legacy prefix byte of 30_encoding.md R84, by its meaning. -/
inductive Prefix where
  | lock
  | repne
  | repe
  | seg (r : SegReg)
  | opSize
  | addrSize
deriving DecidableEq, Repr

/-- What stands before the opcode byte: the legacy prefixes in the order they occur and, in 64-bit mode, the low four
bits `W R X B` of a REX byte (30_encoding.md R80, R85). The order is kept so that the words of an instruction can be
written back exactly. -/
structure Prefixes where
  legacy : List Prefix
  rex    : Option (BitVec 4)
deriving DecidableEq, Repr

/-- One constructor per row of spec/opcode_table.json. Each carries its address size `A` as decoded by 30_encoding.md
R95 and the prefixes that stood before its opcode; the operand size and the repeat condition are the constructor's.
The explicit-operand rows (`SCAS m8` to `SCAS m64`) are second assembly spellings with the same bytes as the
no-operands rows (30_encoding.md R97, R99), so the decoder gives the latter. -/
inductive Instr where
  /-- SCAS m8 (R116) -/
  | scasM8 (a : AddrSize) (p : Prefixes)
  /-- SCAS m16 (R117) -/
  | scasM16 (a : AddrSize) (p : Prefixes)
  /-- SCAS m32 (R118) -/
  | scasM32 (a : AddrSize) (p : Prefixes)
  /-- SCAS m64 (R119) -/
  | scasM64 (a : AddrSize) (p : Prefixes)
  /-- SCASB (R112) -/
  | scasb (a : AddrSize) (p : Prefixes)
  /-- SCASW (R113) -/
  | scasw (a : AddrSize) (p : Prefixes)
  /-- SCASD (R114) -/
  | scasd (a : AddrSize) (p : Prefixes)
  /-- SCASQ (R115) -/
  | scasq (a : AddrSize) (p : Prefixes)
  /-- REPE SCASB (R136) -/
  | repeScasb (a : AddrSize) (p : Prefixes)
  /-- REPNE SCASB (R137) -/
  | repneScasb (a : AddrSize) (p : Prefixes)
  /-- REPE SCASW (R138) -/
  | repeScasw (a : AddrSize) (p : Prefixes)
  /-- REPNE SCASW (R139) -/
  | repneScasw (a : AddrSize) (p : Prefixes)
  /-- REPE SCASD (R140) -/
  | repeScasd (a : AddrSize) (p : Prefixes)
  /-- REPNE SCASD (R141) -/
  | repneScasd (a : AddrSize) (p : Prefixes)
  /-- REPE SCASQ (R142) -/
  | repeScasq (a : AddrSize) (p : Prefixes)
  /-- REPNE SCASQ (R143) -/
  | repneScasq (a : AddrSize) (p : Prefixes)
deriving DecidableEq, Repr

/-- The address size of an instruction. -/
def Instr.addrSize : Instr → AddrSize
  | .scasM8 a _ | .scasM16 a _ | .scasM32 a _ | .scasM64 a _
  | .scasb a _ | .scasw a _ | .scasd a _ | .scasq a _
  | .repeScasb a _ | .repneScasb a _ | .repeScasw a _ | .repneScasw a _
  | .repeScasd a _ | .repneScasd a _ | .repeScasq a _ | .repneScasq a _ => a

/-- The prefixes of an instruction. -/
def Instr.prefixes : Instr → Prefixes
  | .scasM8 _ p | .scasM16 _ p | .scasM32 _ p | .scasM64 _ p
  | .scasb _ p | .scasw _ p | .scasd _ p | .scasq _ p
  | .repeScasb _ p | .repneScasb _ p | .repeScasw _ p | .repneScasw _ p
  | .repeScasd _ p | .repneScasd _ p | .repeScasq _ p | .repneScasq _ p => p

/-- The operand size of an instruction: the `operand_size` column of the opcode table. -/
def Instr.opSize : Instr → OpSize
  | .scasM8 _ _ | .scasb _ _ | .repeScasb _ _ | .repneScasb _ _ => .b8
  | .scasM16 _ _ | .scasw _ _ | .repeScasw _ _ | .repneScasw _ _ => .b16
  | .scasM32 _ _ | .scasd _ _ | .repeScasd _ _ | .repneScasd _ _ => .b32
  | .scasM64 _ _ | .scasq _ _ | .repeScasq _ _ | .repneScasq _ _ => .b64

/-- The repeat condition of an instruction: the `rep` column of the opcode table. -/
def Instr.rep : Instr → Option Rep
  | .scasM8 _ _ | .scasM16 _ _ | .scasM32 _ _ | .scasM64 _ _
  | .scasb _ _ | .scasw _ _ | .scasd _ _ | .scasq _ _ => none
  | .repeScasb _ _ | .repeScasw _ _ | .repeScasd _ _ | .repeScasq _ _ => some .repE
  | .repneScasb _ _ | .repneScasw _ _ | .repneScasd _ _ | .repneScasq _ _ => some .repNE

/-- The no-operands instruction of the same bytes (30_encoding.md R97: "SCASB is `SCAS m8`, SCASW is `SCAS m16`, SCASD
is `SCAS m32`, SCASQ is `SCAS m64`"). -/
def Instr.noOperandsForm : Instr → Instr
  | .scasM8 a p => .scasb a p
  | .scasM16 a p => .scasw a p
  | .scasM32 a p => .scasd a p
  | .scasM64 a p => .scasq a p
  | .scasb a p => .scasb a p
  | .scasw a p => .scasw a p
  | .scasd a p => .scasd a p
  | .scasq a p => .scasq a p
  | .repeScasb a p => .repeScasb a p
  | .repneScasb a p => .repneScasb a p
  | .repeScasw a p => .repeScasw a p
  | .repneScasw a p => .repneScasw a p
  | .repeScasd a p => .repeScasd a p
  | .repneScasd a p => .repneScasd a p
  | .repeScasq a p => .repeScasq a p
  | .repneScasq a p => .repneScasq a p

end Sys2Proof
end

