-- ==== Sys2Proof/Decode.lean ====
section
/-! DEFINITION. The decoder of 30_encoding.md R95 as a total function on a list of bytes, the size selection of R86 and
R87, and the encoder, both written from the tables of 30_encoding.md R81, R84 and R85. -/

namespace Sys2Proof

/-- The byte of each legacy prefix (30_encoding.md R84). -/
def Prefix.byte : Prefix → Byte
  | .lock => 0xF0#8
  | .repne => 0xF2#8
  | .repe => 0xF3#8
  | .seg .es => 0x26#8
  | .seg .cs => 0x2E#8
  | .seg .ss => 0x36#8
  | .seg .ds => 0x3E#8
  | .seg .fs => 0x64#8
  | .seg .gs => 0x65#8
  | .opSize => 0x66#8
  | .addrSize => 0x67#8

/-- The legacy prefixes, once each (30_encoding.md R84). -/
def legacyPrefixes : List Prefix :=
  [.lock, .repne, .repe, .seg .es, .seg .cs, .seg .ss, .seg .ds, .seg .fs, .seg .gs, .opSize, .addrSize]

/-- The legacy prefix that a byte is, if it is one. -/
def legacyPrefix? (b : Byte) : Option Prefix :=
  legacyPrefixes.find? fun p => p.byte == b

/-- A byte in the range 40H to 4FH (30_encoding.md R85). -/
def isRexByte (b : Byte) : Bool :=
  b.extractLsb' 4 4 == 0x4#4

/-- The REX byte with the bits `W R X B` (30_encoding.md R85). -/
def rexByte (wrxb : BitVec 4) : Byte :=
  0x4#4 ++ wrxb

/-- REX.W is bit 3 of the REX byte (30_encoding.md R85). -/
def rexW (wrxb : BitVec 4) : Bool :=
  wrxb.getLsbD 3

/-- Two prefixes of which an admitted sequence holds at most one (30_encoding.md R92). -/
def Prefix.sameKind : Prefix → Prefix → Bool
  | .lock, .lock => true
  | .repne, .repne | .repne, .repe | .repe, .repne | .repe, .repe => true
  | .seg _, .seg _ => true
  | .opSize, .opSize => true
  | .addrSize, .addrSize => true
  | _, _ => false

/-- No two legacy prefixes of one kind (30_encoding.md R92). -/
def distinctKinds : List Prefix → Bool
  | [] => true
  | p :: ps => !(ps.any p.sameKind) && distinctKinds ps

/-- The LOCK prefix is present. -/
def Prefixes.hasLock (p : Prefixes) : Bool :=
  p.legacy.contains .lock

/-- The operand-size prefix 66H is present. -/
def Prefixes.has66 (p : Prefixes) : Bool :=
  p.legacy.contains .opSize

/-- The address-size prefix 67H is present. -/
def Prefixes.has67 (p : Prefixes) : Bool :=
  p.legacy.contains .addrSize

/-- A REX prefix with W = 1 is present. -/
def Prefixes.hasRexW (p : Prefixes) : Bool :=
  p.rex.any rexW

/-- The repeat condition among the prefixes (30_encoding.md R84, 41_rep_scas.md R131). -/
def Prefixes.rep (p : Prefixes) : Option Rep :=
  if p.legacy.contains .repe then some .repE
  else if p.legacy.contains .repne then some .repNE
  else none

/-- `L`, the number of prefix bytes plus 1 (30_encoding.md R91). -/
def Prefixes.length (p : Prefixes) : Nat :=
  p.legacy.length + (if p.rex.isSome then 1 else 0) + 1

/-- The address size as wide as the default size. -/
def CodeSize.addrSize : CodeSize → AddrSize
  | .d16 => .a16
  | .d32 => .a32

/-- The operand size as wide as the default size. -/
def CodeSize.opSize : CodeSize → OpSize
  | .d16 => .b16
  | .d32 => .b32

/-- The address size `A` (30_encoding.md R86). -/
def addrSizeOf (m : Mode) (d : CodeSize) (p : Prefixes) : AddrSize :=
  match m with
  | .long64 => if p.has67 then .a32 else .a64
  | .real | .prot | .v86 | .compat => if p.has67 then d.other.addrSize else d.addrSize

/-- The operand size `N` of opcode AF (30_encoding.md R87). -/
def opSizeOfAF (m : Mode) (d : CodeSize) (p : Prefixes) : OpSize :=
  match m with
  | .long64 => if p.hasRexW then .b64 else if p.has66 then .b16 else .b32
  | .real | .prot | .v86 | .compat => if p.has66 then d.other.opSize else d.opSize

/-- The opcode byte of the byte form and that of the other forms (30_encoding.md R81). -/
def opcodeAE : Byte := 0xAE#8
@[inherit_doc opcodeAE]
def opcodeAF : Byte := 0xAF#8

/-- The operand size of an opcode byte under the prefixes before it, for the two opcodes of the spec
(30_encoding.md R81, R87). -/
def opSizeOf (m : Mode) (d : CodeSize) (p : Prefixes) (op : Byte) : Option OpSize :=
  if op = opcodeAE then some .b8
  else if op = opcodeAF then some (opSizeOfAF m d p)
  else none

/-- The instruction of an operand size, a repeat condition, an address size and prefixes (30_encoding.md R88, R99). -/
def instrOf (n : OpSize) (rep : Option Rep) (a : AddrSize) (p : Prefixes) : Instr :=
  match rep, n with
  | none, .b8 => .scasb a p
  | none, .b16 => .scasw a p
  | none, .b32 => .scasd a p
  | none, .b64 => .scasq a p
  | some .repE, .b8 => .repeScasb a p
  | some .repE, .b16 => .repeScasw a p
  | some .repE, .b32 => .repeScasd a p
  | some .repE, .b64 => .repeScasq a p
  | some .repNE, .b8 => .repneScasb a p
  | some .repNE, .b16 => .repneScasw a p
  | some .repNE, .b32 => .repneScasd a p
  | some .repNE, .b64 => .repneScasq a p

/-- Why the decoder gives a byte sequence no instruction. -/
inductive DecodeError where
  /-- The byte that ends the prefixes is neither AE nor AF (30_encoding.md R81). -/
  | notScas
  /-- A prefix combination that the spec declines (30_encoding.md R92). -/
  | prefixCombination
  /-- The bytes given end before an opcode byte. -/
  | truncated
deriving DecidableEq, Repr

/-- What the decoder answers: an instruction and the bytes after it, or a reason. -/
inductive DecodeResult where
  | ok (i : Instr) (rest : List Byte)
  | error (e : DecodeError)
deriving DecidableEq, Repr

/-- The end of 30_encoding.md R95: `b` is the byte after the prefixes. -/
def decodeOpcode (m : Mode) (d : CodeSize) (p : Prefixes) (b : Byte) (rest : List Byte) : DecodeResult :=
  match opSizeOf m d p b with
  | some n => .ok (instrOf n p.rep (addrSizeOf m d p) p) rest
  | none => .error .notScas

/-- The byte after a REX prefix: neither a legacy prefix nor a second REX (30_encoding.md R92, R95). -/
def decodeAfterRex (m : Mode) (d : CodeSize) (legacy : List Prefix) (wrxb : BitVec 4) : List Byte → DecodeResult
  | [] => .error .truncated
  | b :: rest =>
    if (legacyPrefix? b).isSome || isRexByte b then .error .prefixCombination
    else decodeOpcode m d ⟨legacy, some wrxb⟩ b rest

/-- The loop of 30_encoding.md R95; `seen` holds the legacy prefixes met so far, in order. -/
def decodeFrom (m : Mode) (d : CodeSize) (seen : List Prefix) : List Byte → DecodeResult
  | [] => .error .truncated
  | b :: rest =>
    match legacyPrefix? b with
    | some p =>
      if seen.any p.sameKind then .error .prefixCombination
      else decodeFrom m d (seen ++ [p]) rest
    | none =>
      if m = .long64 ∧ isRexByte b = true then decodeAfterRex m d seen (b.extractLsb' 0 4) rest
      else decodeOpcode m d ⟨seen, none⟩ b rest

/-- The decoder of 30_encoding.md R95. LOCK is kept in the instruction's prefixes; the #UD it raises (R90) is taken by
every meaning before anything else. -/
def decode (m : Mode) (d : CodeSize) (bytes : List Byte) : DecodeResult :=
  decodeFrom m d [] bytes

/-- The length of the longest admitted instruction in bytes (30_encoding.md R82: 7, with LOCK). -/
def maxInstrBytes : Nat := 7

/-- The bytes of an instruction whose bits are `w`, numbered as spec/opcode_table.json numbers them, the first byte at
the lowest address, with zeros above the table's `nbits`. -/
def tableBytes (nbits w : Nat) : List Byte :=
  (List.range maxInstrBytes).map fun k => BitVec.ofNat 8 ((w % 2 ^ nbits) / 2 ^ (8 * k))

/-- The instruction the decoder reads from a table word. The table's words hold the opcode byte alone, and which
instruction AF is depends on the mode (30_encoding.md R88): this decodes in the mode that `State.reset` is in
(`Real`, `csD = 16`). -/
def decodeTableWord (nbits w : Nat) : Option Instr :=
  match decode .real .d16 (tableBytes nbits w) with
  | .ok i _ => some i
  | .error _ => none

/-- The opcode byte of an operand size (30_encoding.md R81). -/
def OpSize.opcode : OpSize → Byte
  | .b8 => opcodeAE
  | .b16 | .b32 | .b64 => opcodeAF

/-- The bytes of the prefixes in their order, REX last (30_encoding.md R80). -/
def Prefixes.encode (p : Prefixes) : List Byte :=
  p.legacy.map Prefix.byte ++ (p.rex.map rexByte).toList

/-- The bytes of an instruction: legacy prefixes, REX, opcode (30_encoding.md R80). -/
def encode (i : Instr) : List Byte :=
  i.prefixes.encode ++ [i.opSize.opcode]

end Sys2Proof
end

