-- ==== Sys2Proof/Config.lean ====
section
/-! DEFINITION. What one run of the model holds fixed and no rule of the spec fixes: the free values (opaque, without a
body, so that no proof can know one) and the byte an unlisted memory address holds. The parameters that the spec
hands to the launch (`LA_BITS`, `Translate`, `EsIllegal`, the program text, `end_pc`) are plain data in `State`,
so every claim about a state is a claim about every value of them. -/

namespace Sys2Proof.Config

/-- FREE VALUE (log 7): whether an operand that is unaligned AND does not translate reports #AC rather than #PF
(60_exceptions.md R159: "the model admits both outcomes"). Applied to `State.freeIndex`. -/
opaque acBeforePf : Nat → Bool

/-- FREE VALUE (log 8): which of several failing bytes of one operand reports its page fault (60_exceptions.md R155:
"the model admits the fault of any failing byte"). Applied to `State.freeIndex`, and reduced to the bytes that fail. -/
opaque pfByte : Nat → Nat

/-- FREE VALUE (log 9): bits 63 to 32 of RCX after a repeated scan with a 32-bit address size in 64-bit mode whose
count was zero at entry (41_rep_scas.md R133, 93_implementation_defined.md U5). Applied to `State.freeIndex`. -/
opaque rcxHighAfterZeroCount : Nat → BitVec 32

/-- FREE VALUE (log 10): the instruction pointer after an instruction whose last byte is the last byte of the
instruction-pointer range (10_state.md R24 leaves the wrap of `pc` unmodelled). Applied to `State.freeIndex`. -/
opaque pcPastTop : Nat → BitVec 64

/-- DESIGN CHOICE, unsafe (log 5): what a byte of data memory reads as when the launch has listed nothing at its
physical address. The spec gives memory no reset contents (10_state.md R36). -/
def unlistedByte : Byte := 0x00#8

end Sys2Proof.Config
end

