-- ==== Sys2Proof/Machine/State.lean ====
section
/-! DEFINITION. The state of the machine as plain data, the reasons a step can stop, and the state after reset. -/

namespace Sys2Proof.Machine

/-- The general registers (10_state.md R20, R23). -/
inductive Reg where
  | rax | rcx | rdx | rbx | rsp | rbp | rsi | rdi | r8 | r9 | r10 | r11 | r12 | r13 | r14 | r15
deriving DecidableEq, Repr

/-- The general register file, 64 bits each (10_state.md R20). The instruction family reads RAX, RCX and RDI and writes
RCX and RDI; the others are carried unchanged (R23). -/
structure Gpr where
  rax : BitVec 64
  rcx : BitVec 64
  rdx : BitVec 64
  rbx : BitVec 64
  rsp : BitVec 64
  rbp : BitVec 64
  rsi : BitVec 64
  rdi : BitVec 64
  r8  : BitVec 64
  r9  : BitVec 64
  r10 : BitVec 64
  r11 : BitVec 64
  r12 : BitVec 64
  r13 : BitVec 64
  r14 : BitVec 64
  r15 : BitVec 64
deriving DecidableEq, Repr

/-- The ES record of 10_state.md R27. -/
structure Segment where
  selector   : BitVec 16
  base       : BitVec 32
  limit      : BitVec 32
  expandDown : Bool
  top        : BitVec 32
  null       : Bool
deriving DecidableEq, Repr

/-- `LA_BITS`, the implemented linear-address bits (00_scope.md R5: 48 or 57). -/
inductive LaBits where
  | la48 | la57
deriving DecidableEq, Repr

/-- `LA_BITS` as a number. -/
def LaBits.width : LaBits → Nat
  | .la48 => 48
  | .la57 => 57

/-- What `Translate` answers for one byte (10_state.md R31). -/
inductive Translation where
  | ok (phys : Nat)
  | pageFault (code : Nat)
deriving DecidableEq, Repr

/-- One argument pair at which `Translate` is not the identity, and its answer there. -/
structure PageEntry where
  lin    : BitVec 64
  cpl    : Fin 4
  result : Translation
deriving DecidableEq, Repr

/-- Everything the spec gives the machine, and the parameters it hands to the launch (10_state.md R20 to R33,
70_reset_and_hazards.md R180), as plain data. `freeIndex` is the model's own (log 6). -/
structure State where
  /-- the general registers (R20, R23) -/
  gpr       : Gpr
  /-- the instruction pointer (R24) -/
  pc        : BitVec 64
  /-- the flags register, its bits at the places of R25 -/
  eflags    : BitVec 32
  /-- the segment register ES (R27) -/
  es        : Segment
  /-- the operating mode (R28) -/
  mode      : Mode
  /-- the default size of the non-64-bit modes (R28) -/
  csD       : CodeSize
  /-- the current privilege level (R29) -/
  cpl       : Fin 4
  /-- bit AM of CR0, one of the two bits whose conjunction is `AlignCheckEnabled` (R30) -/
  cr0Am     : Bool
  /-- `LA_BITS` (00_scope.md R5) -/
  laBits    : LaBits
  /-- `Translate`: the argument pairs at which it is not the identity (R31, log 3) -/
  paging    : List PageEntry
  /-- `EsIllegal`: the pairs (offset, operand bytes) of which it holds (20_memory.md R56, log 4) -/
  esIllegal : List (Nat × Nat)
  /-- data memory by physical address (R33) -/
  mem       : List Host.Cell
  /-- the program text by instruction-pointer value (00_scope.md R5) -/
  text      : List Host.Cell
  /-- `end_pc` (00_scope.md R10), if the launch gives one -/
  endPc     : Option (BitVec 64)
  /-- the model's own: which free values the next execution takes -/
  freeIndex : Nat
deriving DecidableEq, Repr

/-- Why a step stops with an exception (60_exceptions.md R160). Each carries what R158 says is recorded; `pc` is the
address of the first byte of the faulting instruction, prefixes included. The state stays as it was before the step
(R157). Stopping where the processor enters a handler is SAFE (log 1). -/
inductive Fault where
  /-- #UD, raised by every instruction under a LOCK prefix (R151). Safe: the processor raises it too. -/
  | ud (pc : BitVec 64)
  /-- #GP, raised by the segment and canonical-form checks of the operand read (R152); the error code is absent in
  real-address mode and 0 elsewhere. Safe: the processor raises it too. -/
  | gp (code : Option Nat) (pc : BitVec 64)
  /-- #PF with the code that `Translate` gave and the faulting linear address, raised by the operand read (R155). Safe:
  the processor raises it too. -/
  | pf (code : Nat) (lin : BitVec 64) (pc : BitVec 64)
  /-- #AC with its error code, raised by the operand read (R156). Safe: the processor raises it too. -/
  | ac (code : Nat) (pc : BitVec 64)
deriving DecidableEq, Repr

/-- Why the model gives a step no outcome of the processor (00_scope.md R9). Every refusal is SAFE: it says nothing of
the processor. -/
inductive Refusal where
  /-- An instruction of the opcode table that has no meaning yet: raised by `exec` alone; at present no arm does. Safe. -/
  | notModelled (mnemonic : String)
  /-- The opcode byte is neither AE nor AF: raised by the fetch of `step` (30_encoding.md R81). Safe. -/
  | notScas
  /-- A prefix combination that the spec declines: raised by the fetch of `step` (30_encoding.md R92). Safe. -/
  | prefixCombination
  /-- The operand runs past the top of the offset range, or from canonical into non-canonical addresses, where the spec
  leaves the outcome open: raised by the operand read (20_memory.md R55, R56, R58). Safe. -/
  | operandWrapsOffsetRange
  /-- The program text holds no byte where one is fetched: raised by the fetch of `step` (00_scope.md R5). Safe. -/
  | noProgramText
  /-- The instruction's bytes would cross the top of the instruction-pointer range: raised by the fetch of `step`
  (10_state.md R24). Safe. -/
  | textCrossesTop
  /-- `pc` is the launch's `end_pc`, where no instruction is fetched: raised by `step` (00_scope.md R10). Safe. -/
  | runEnded
deriving DecidableEq, Repr

/-- The state after reset: the values of 10_state.md R36, and where R36 gives none the values of log 2. -/
def State.reset : State :=
  { gpr := { rax := 0, rcx := 0, rdx := 0x506E3, rbx := 0, rsp := 0, rbp := 0, rsi := 0, rdi := 0,
             r8 := 0, r9 := 0, r10 := 0, r11 := 0, r12 := 0, r13 := 0, r14 := 0, r15 := 0 }
    pc := 0xFFF0
    eflags := 0x00000002
    es := { selector := 0, base := 0, limit := 0xFFFF, expandDown := false, top := 0xFFFF, null := false }
    mode := .real
    csD := .d16
    cpl := 0
    cr0Am := false
    laBits := .la48
    paging := []
    esIllegal := []
    mem := []
    text := []
    endPc := none
    freeIndex := 0 }

end Sys2Proof.Machine
end

