-- ==== Sys2Proof/Machine/Flags.lean ====
section
/-! DEFINITION. The flags register: its bits, the six status flags of a subtraction, and writing them. -/

namespace Sys2Proof.Machine

/-- The seven flags in scope (10_state.md R25). -/
inductive Flag where
  | cf | pf | af | zf | sf | df | of
deriving DecidableEq, Repr

/-- The bit position of a flag in EFLAGS (10_state.md R25). -/
def Flag.bit : Flag → Nat
  | .cf => 0
  | .pf => 2
  | .af => 4
  | .zf => 6
  | .sf => 7
  | .df => 10
  | .of => 11

/-- The bit position of EFLAGS.AC (10_state.md R25, R30). -/
def acBit : Nat := 18

/-- `flag.F` (00_scope.md R7). -/
def State.flag (s : State) (f : Flag) : Bool :=
  s.eflags.getLsbD f.bit

/-- "alignment checking is enabled": CR0.AM and EFLAGS.AC (10_state.md R30). -/
def State.alignCheckEnabled (s : State) : Bool :=
  s.cr0Am && s.eflags.getLsbD acBit

/-- The six status flags (00_scope.md R11). -/
structure StatusFlags where
  cf : Bool
  pf : Bool
  af : Bool
  zf : Bool
  sf : Bool
  of : Bool
deriving DecidableEq, Repr

/-- An even number of 1 bits (40_scas.md R111). -/
def evenParity (v : BitVec 8) : Bool :=
  ((List.range 8).countP fun k => v.getLsbD k) % 2 == 0

/-- `SubFlags_N(a, b)` (40_scas.md R111): `a` is the accumulator, `b` the memory operand. -/
def subFlags {N : Nat} (a b : BitVec N) : StatusFlags :=
  let temp := a - b
  { cf := a.ult b
    pf := evenParity (temp.setWidth 8)
    af := (a.setWidth 4).ult (b.setWidth 4)
    zf := temp == 0#N
    sf := temp.msb
    of := a.msb != b.msb && temp.msb != a.msb }

/-- A word with bit `k` set to `b`. -/
def setBit (v : BitVec 32) (k : Nat) (b : Bool) : BitVec 32 :=
  if b then v ||| (1#32 <<< k) else v &&& ~~~(1#32 <<< k)

/-- EFLAGS with the six status flags written and every other bit kept (10_state.md R26). -/
def writeStatus (v : BitVec 32) (f : StatusFlags) : BitVec 32 :=
  setBit (setBit (setBit (setBit (setBit (setBit v Flag.cf.bit f.cf) Flag.pf.bit f.pf) Flag.af.bit f.af)
    Flag.zf.bit f.zf) Flag.sf.bit f.sf) Flag.of.bit f.of

/-- The state with the six status flags written. -/
def State.setStatus (s : State) (f : StatusFlags) : State :=
  { s with eflags := writeStatus s.eflags f }

end Sys2Proof.Machine
end

