-- ==== Sys2Proof/Machine/Ops.lean ====
section
/-! DEFINITION. The named operations over registers, memory, program text and the instruction pointer, and raising an
exception. -/

namespace Sys2Proof.Machine

/-! ## Sequencing -/

/-- Go on with the value of a first computation unless it stops. -/
def andThen {α β : Type} (o : Host.Outcome α Fault Refusal) (k : α → Host.Outcome β Fault Refusal) :
    Host.Outcome β Fault Refusal :=
  match o with
  | .next v => k v
  | .fault f => .fault f
  | .refused r => .refused r

/-! ## Exceptions -/

/-- `raise` (00_scope.md R7, 60_exceptions.md R160): the step ends with the exception, which records the instruction
pointer (R158); no write of the instruction happens (R157). No handler is entered (R160, log 1) and so no return from
one exists in the model (R162). -/
def takeException {α : Type} (e : BitVec 64 → Fault) (s : State) : Host.Outcome α Fault Refusal :=
  .fault (e s.pc)

/-- The vector number of each exception (60_exceptions.md R154). No step reads it: a fault outcome carries the symbol. -/
def Fault.vector : Fault → Nat
  | .ud _ => 6
  | .gp _ _ => 13
  | .pf _ _ _ => 14
  | .ac _ _ => 17

/-! ## General registers -/

/-- `x[r]` (00_scope.md R7). -/
def State.reg (s : State) : Reg → BitVec 64
  | .rax => s.gpr.rax
  | .rcx => s.gpr.rcx
  | .rdx => s.gpr.rdx
  | .rbx => s.gpr.rbx
  | .rsp => s.gpr.rsp
  | .rbp => s.gpr.rbp
  | .rsi => s.gpr.rsi
  | .rdi => s.gpr.rdi
  | .r8 => s.gpr.r8
  | .r9 => s.gpr.r9
  | .r10 => s.gpr.r10
  | .r11 => s.gpr.r11
  | .r12 => s.gpr.r12
  | .r13 => s.gpr.r13
  | .r14 => s.gpr.r14
  | .r15 => s.gpr.r15

/-- `Acc(N)` (10_state.md R21). -/
def State.acc (s : State) (n : OpSize) : BitVec n.bits :=
  s.gpr.rax.setWidth n.bits

/-- `Idx(A)` (10_state.md R21). -/
def State.idx (s : State) (a : AddrSize) : BitVec a.bits :=
  s.gpr.rdi.setWidth a.bits

/-- `Cnt(A)` (10_state.md R21, 41_rep_scas.md R130). -/
def State.cnt (s : State) (a : AddrSize) : BitVec a.bits :=
  s.gpr.rcx.setWidth a.bits

/-- Writing the view of width `A` of a register (10_state.md R22): a 16-bit write keeps bits 63 to 16, a 32-bit write
zeroes bits 63 to 32 in every mode (log 12), a 64-bit write replaces all. -/
def writeView (old : BitVec 64) (a : AddrSize) (v : BitVec a.bits) : BitVec 64 :=
  match a with
  | .a16 => old.extractLsb' 16 48 ++ v.setWidth 16
  | .a32 => v.setWidth 64
  | .a64 => v.setWidth 64

/-- `SetIdx(A, v)` (10_state.md R22). -/
def State.setIdx (s : State) (a : AddrSize) (v : BitVec a.bits) : State :=
  { s with gpr := { s.gpr with rdi := writeView s.gpr.rdi a v } }

/-- `SetCnt(A, v)` (10_state.md R22). -/
def State.setCnt (s : State) (a : AddrSize) (v : BitVec a.bits) : State :=
  { s with gpr := { s.gpr with rcx := writeView s.gpr.rcx a v } }

/-! ## Sparse byte maps -/

/-- The byte listed at an address, if there is one. -/
def lookupCell : List Host.Cell → Nat → Option Byte
  | [], _ => none
  | c :: cs, a => if c.1 = a then some c.2 else lookupCell cs a

/-- List a byte at an address, in its place among rising addresses. -/
def insertCell : List Host.Cell → Nat → Byte → List Host.Cell
  | [], a, b => [(a, b)]
  | c :: cs, a, b =>
    if a < c.1 then (a, b) :: c :: cs
    else if a = c.1 then (a, b) :: cs
    else c :: insertCell cs a b

/-- Take an address off the list. -/
def eraseCell (cs : List Host.Cell) (a : Nat) : List Host.Cell :=
  cs.filter fun c => c.1 != a

/-- Every address of the list is above `lo`, and they rise strictly. -/
def risingFrom : Nat → List Host.Cell → Bool
  | _, [] => true
  | lo, c :: cs => lo ≤ c.1 && risingFrom (c.1 + 1) cs

/-- Addresses strictly rising. -/
def rising (cs : List Host.Cell) : Bool :=
  risingFrom 0 cs

/-! ## Data memory -/

/-- The canonical form of data memory: addresses strictly rising, no entry equal to what an unlisted address reads
as. -/
def Memory.wf (m : List Host.Cell) : Bool :=
  rising m && m.all fun c => c.2 != Config.unlistedByte

/-- `MemRead(a, 1)` (00_scope.md R7); what an unlisted address reads as is log 5. -/
def Memory.readByte (m : List Host.Cell) (a : Nat) : Byte :=
  (lookupCell m a).getD Config.unlistedByte

/-- Place one byte, keeping the canonical form. -/
def Memory.writeByte (m : List Host.Cell) (a : Nat) (b : Byte) : List Host.Cell :=
  if b = Config.unlistedByte then eraseCell m a else insertCell m a b

/-- The value of bytes in increasing address order: little-endian (20_memory.md R51). -/
def leValue : List Byte → Nat
  | [] => 0
  | b :: bs => b.toNat + 256 * leValue bs

/-- `MemRead(addr, n)` (00_scope.md R7, 20_memory.md R51). -/
def Memory.read (m : List Host.Cell) (addr n : Nat) : BitVec (8 * n) :=
  BitVec.ofNat (8 * n) (leValue ((List.range n).map fun k => Memory.readByte m (addr + k)))

/-- Place bytes at increasing addresses. -/
def Memory.writeBytes (m : List Host.Cell) (addr : Nat) : List Byte → List Host.Cell
  | [] => m
  | b :: bs => Memory.writeBytes (Memory.writeByte m addr b) (addr + 1) bs

/-- `MemWrite(addr, n, v)`, which no instruction uses (00_scope.md R7, 20_memory.md R60). -/
def Memory.write (m : List Host.Cell) (addr n : Nat) (v : BitVec (8 * n)) : List Host.Cell :=
  Memory.writeBytes m addr ((List.range n).map fun k => v.extractLsb' (8 * k) 8)

/-! ## Paging -/

/-- Look an argument pair up among those at which `Translate` is not the identity. -/
def lookupPage : List PageEntry → BitVec 64 → Fin 4 → Option Translation
  | [], _, _ => none
  | e :: es, lin, cpl => if e.lin = lin ∧ e.cpl = cpl then some e.result else lookupPage es lin cpl

/-- `Translate(lin, CPL)` at the current privilege level (10_state.md R31): the identity in real-address mode, and
elsewhere wherever the launch lists nothing. -/
def State.translate (s : State) (lin : BitVec 64) : Translation :=
  match s.mode with
  | .real => .ok lin.toNat
  | .prot | .v86 | .compat | .long64 => (lookupPage s.paging lin s.cpl).getD (.ok lin.toNat)

/-! ## The instruction pointer and the program text -/

/-- The width of the instruction pointer in use: RIP in 64-bit mode, EIP, or its low 16 bits (10_state.md R24). -/
def State.ipBits (s : State) : Nat :=
  match s.mode, s.csD with
  | .long64, _ => 64
  | .real, .d16 | .prot, .d16 | .v86, .d16 | .compat, .d16 => 16
  | .real, .d32 | .prot, .d32 | .v86, .d32 | .compat, .d32 => 32

/-- The value of the instruction pointer in use. -/
def State.ip (s : State) : Nat :=
  s.pc.toNat % 2 ^ s.ipBits

/-- The execution is complete with `pc` as it is: the next one takes other free values. -/
def State.tick (s : State) : State :=
  { s with freeIndex := s.freeIndex + 1 }

/-- `pc` after an instruction of `len` bytes (30_encoding.md R91). Past the top of the range the value is free
(10_state.md R24, log 10), of the width of the range. -/
def State.nextPc (s : State) (len : Nat) : BitVec 64 :=
  if s.ip + len < 2 ^ s.ipBits then s.pc + BitVec.ofNat 64 len
  else ((Config.pcPastTop s.freeIndex).setWidth s.ipBits).setWidth 64

/-- `pc <- pc + L`, and the execution is complete (30_encoding.md R91). -/
def State.advance (s : State) (len : Nat) : State :=
  ({ s with pc := s.nextPc len }).tick

/-- The bytes of the program text at consecutive addresses from `a`, up to `k` of them, as far as the text has them
inside the instruction-pointer range (00_scope.md R5, 10_state.md R24). -/
def State.textFrom (s : State) (a : Nat) : Nat → List Byte
  | 0 => []
  | k + 1 =>
    if a < 2 ^ s.ipBits then
      match lookupCell s.text a with
      | some b => b :: State.textFrom s (a + 1) k
      | none => []
    else []

/-- The bytes that the decoder is given at the current `pc`. -/
def State.fetchBytes (s : State) : List Byte :=
  s.textFrom s.ip maxInstrBytes

/-- Why the text gives no further byte after those fetched. -/
def State.fetchEnd (s : State) : Refusal :=
  if s.ip + s.fetchBytes.length < 2 ^ s.ipBits then .noProgramText else .textCrossesTop

/-- Fetch and decode at the current `pc` (00_scope.md R9, 30_encoding.md R95). -/
def State.fetch (s : State) : Host.Outcome Instr Fault Refusal :=
  match decode s.mode s.csD s.fetchBytes with
  | .ok i _ => .next i
  | .error .notScas => .refused .notScas
  | .error .prefixCombination => .refused .prefixCombination
  | .error .truncated => .refused s.fetchEnd

/-- Place program text at increasing addresses, as a launch does. -/
def placeText (t : List Host.Cell) (a : Nat) : List Byte → List Host.Cell
  | [] => t
  | b :: bs => placeText (insertCell t a b) (a + 1) bs

end Sys2Proof.Machine
end

