-- ==== Sys2Proof/Machine/Operands.lean ====
section
/-! DEFINITION. The one memory operand: its addresses, the checks on it, and the checked read (20_memory.md). -/

namespace Sys2Proof.Machine

/-- `lin(i)`: the linear address of byte `i` of an operand at offset `off` (20_memory.md R53 outside 64-bit mode, R54 in
it). -/
def State.lin (s : State) (off i : Nat) : BitVec 64 :=
  match s.mode with
  | .long64 => BitVec.ofNat 64 (off + i)
  | .real | .prot | .v86 | .compat => (s.es.base + BitVec.ofNat 32 (off + i)).setWidth 64

/-- The verdict of the limit check (20_memory.md R55). -/
inductive Verdict where
  | inside | outside | unknown
deriving DecidableEq, Repr

/-- `LimitVerdict(off, n, A)` (20_memory.md R55). -/
def limitVerdict (es : Segment) (off n : Nat) (a : AddrSize) : Verdict :=
  let last := off + n - 1
  let limit := es.limit.toNat
  let top := es.top.toNat
  if last < 2 ^ a.bits then
    if es.expandDown = false then
      if last ≤ limit then .inside else .outside
    else
      if limit < off ∧ last ≤ top then .inside else .outside
  else
    if es.expandDown = false then
      if limit < last ∧ limit ≠ 0xFFFFFFFF then .outside else .unknown
    else
      if off ≤ limit then .outside
      else if top < last ∧ top = 0xFFFF then .outside
      else .unknown

/-- Bits 63 down to `LA_BITS - 1` of an address are all equal (20_memory.md R56). -/
def canonical (la : LaBits) (a : BitVec 64) : Bool :=
  let high := a >>> (la.width - 1)
  high == 0#64 || high == BitVec.allOnes 64 >>> (la.width - 1)

/-- The error code of #GP: absent in real-address mode and 0 elsewhere (60_exceptions.md R152). -/
def State.gpCode (s : State) : Option Nat :=
  match s.mode with
  | .real => none
  | .prot | .v86 | .compat | .long64 => some 0

/-- The modes whose #GP list has the NULL-selector and illegal-address conditions (60_exceptions.md R150). -/
def checksSelector : Mode → Bool
  | .prot | .compat => true
  | .real | .v86 | .long64 => false

/-- Step 1 of `ReadES` (20_memory.md R58): the NULL selector. -/
def checkNull (s : State) : Host.Outcome Unit Fault Refusal :=
  if checksSelector s.mode && s.es.null then takeException (.gp s.gpCode) s else .next ()

/-- Step 2 of `ReadES` outside 64-bit mode (20_memory.md R55, R58): the segment limit. -/
def checkLimit (off : Nat) (n : OpSize) (a : AddrSize) (s : State) : Host.Outcome Unit Fault Refusal :=
  match limitVerdict s.es off n.bytes a with
  | .inside => .next ()
  | .outside => takeException (.gp s.gpCode) s
  | .unknown => .refused .operandWrapsOffsetRange

/-- Step 2 of `ReadES` in 64-bit mode (20_memory.md R56, R58): canonical form. -/
def checkCanonical (off : Nat) (n : OpSize) (a : AddrSize) (s : State) : Host.Outcome Unit Fault Refusal :=
  if canonical s.laBits (s.lin off 0) = false then takeException (.gp s.gpCode) s
  else if 2 ^ a.bits ≤ off + n.bytes - 1
      ∨ (List.range n.bytes).any (fun k => !canonical s.laBits (s.lin off k)) = true then
    .refused .operandWrapsOffsetRange
  else .next ()

/-- Step 2 of `ReadES` (20_memory.md R58). -/
def checkRange (off : Nat) (n : OpSize) (a : AddrSize) (s : State) : Host.Outcome Unit Fault Refusal :=
  match s.mode with
  | .long64 => checkCanonical off n a s
  | .real | .prot | .v86 | .compat => checkLimit off n a s

/-- Step 3 of `ReadES` (20_memory.md R58): the predicate `EsIllegal(off, n)`. -/
def checkIllegal (off : Nat) (n : OpSize) (s : State) : Host.Outcome Unit Fault Refusal :=
  if checksSelector s.mode && s.esIllegal.contains (off, n.bytes) then takeException (.gp s.gpCode) s
  else .next ()

/-- The mode and privilege level raise #AC on an unaligned reference when checking is enabled (20_memory.md R57). -/
def State.acPrivilege (s : State) : Bool :=
  match s.mode with
  | .real => false
  | .v86 => true
  | .prot | .compat | .long64 => s.cpl == 3

/-- A reference is unaligned when its linear address is no multiple of its size (20_memory.md R57). -/
def State.unaligned (s : State) (off : Nat) (n : OpSize) : Bool :=
  1 < n.bytes && (s.lin off 0).toNat % n.bytes != 0

/-- `acApplies` of `ReadES` (20_memory.md R58). -/
def State.acApplies (s : State) (off : Nat) (n : OpSize) : Bool :=
  s.unaligned off n && s.alignCheckEnabled && s.acPrivilege

/-- The linear address and the translation of each byte of the operand, in address order. -/
def State.translations (s : State) (off : Nat) (n : OpSize) : List (BitVec 64 × Translation) :=
  (List.range n.bytes).map fun k => (s.lin off k, s.translate (s.lin off k))

/-- The page faults of the operand's bytes: code and linear address (60_exceptions.md R155). -/
def pageFaults (ts : List (BitVec 64 × Translation)) : List (Nat × BitVec 64) :=
  ts.filterMap fun t =>
    match t.2 with
    | .pageFault c => some (c, t.1)
    | .ok _ => none

/-- The physical addresses of the operand's bytes. -/
def physicals (ts : List (BitVec 64 × Translation)) : List Nat :=
  ts.filterMap fun t =>
    match t.2 with
    | .pageFault _ => none
    | .ok p => some p

/-- The page fault that is reported: the only one, or any of several (60_exceptions.md R155, log 8). -/
def reportedFault (f : Nat × BitVec 64) (fs : List (Nat × BitVec 64)) (k : Nat) : Nat × BitVec 64 :=
  match fs with
  | [] => f
  | _ :: _ => (f :: fs).getD (Config.pfByte k % (fs.length + 1)) f

/-- Step 4 of `ReadES` (20_memory.md R58, 60_exceptions.md R159): alignment and paging, in either order when both
apply (log 7). -/
def checkAlignAndPages (off : Nat) (n : OpSize) (s : State) : Host.Outcome Unit Fault Refusal :=
  match pageFaults (s.translations off n) with
  | [] => if s.acApplies off n then takeException (.ac 0) s else .next ()
  | f :: fs =>
    if s.acApplies off n && Config.acBeforePf s.freeIndex then takeException (.ac 0) s
    else takeException (.pf (reportedFault f fs s.freeIndex).1 (reportedFault f fs s.freeIndex).2) s

/-- Step 5 of `ReadES` (20_memory.md R51, R58): the bytes at the translated addresses, little-endian. -/
def State.operand (s : State) (off : Nat) (n : OpSize) : BitVec n.bits :=
  BitVec.ofNat n.bits (leValue ((physicals (s.translations off n)).map (Memory.readByte s.mem)))

/-- `ReadES(off, n, A)`, the checked read (20_memory.md R58). -/
def readEs (off : Nat) (n : OpSize) (a : AddrSize) (s : State) : Host.Outcome (BitVec n.bits) Fault Refusal :=
  andThen (checkNull s) fun _ =>
  andThen (checkRange off n a s) fun _ =>
  andThen (checkIllegal off n s) fun _ =>
  andThen (checkAlignAndPages off n s) fun _ =>
  .next (s.operand off n)

end Sys2Proof.Machine
end

