-- ==== Sys2Proof/Machine/Scas.lean ====
section
/-! DEFINITION. The scan instructions without a repeat prefix (40_scas.md). -/

namespace Sys2Proof.Machine

/-- The index register after an element: up when DF = 0, down when DF = 1, modulo `2^A` (40_scas.md R120). -/
def State.steppedIdx (s : State) (n : OpSize) (a : AddrSize) : BitVec a.bits :=
  if s.flag .df = false then s.idx a + BitVec.ofNat a.bits n.bytes else s.idx a - BitVec.ofNat a.bits n.bytes

/-- The writes of one comparison with the memory operand `src` (40_scas.md R110). -/
def State.compared (s : State) (n : OpSize) (a : AddrSize) (src : BitVec n.bits) : State :=
  (s.setStatus (subFlags (s.acc n) src)).setIdx a (s.steppedIdx n a)

/-- `ScasExec(N, A)` (40_scas.md R110). -/
def scasExec (n : OpSize) (a : AddrSize) (s : State) : Host.Outcome State Fault Refusal :=
  andThen (readEs (s.idx a).toNat n a s) fun src => .next (s.compared n a src)

/-- A LOCK prefix raises #UD before anything else (30_encoding.md R90, 60_exceptions.md R151, R159). -/
def unlessLocked (p : Prefixes) (s : State) (o : Host.Outcome State Fault Refusal) :
    Host.Outcome State Fault Refusal :=
  if p.hasLock then takeException .ud s else o

/-- One comparison, then `pc <- pc + L` (40_scas.md R112 to R115). -/
def scas (n : OpSize) (a : AddrSize) (p : Prefixes) (s : State) : Host.Outcome State Fault Refusal :=
  unlessLocked p s <| andThen (scasExec n a s) fun t => .next (t.advance p.length)

/-- SCAS m8 (40_scas.md R116). -/
def execScasM8 (a : AddrSize) (p : Prefixes) (s : State) : Host.Outcome State Fault Refusal :=
  scas .b8 a p s

/-- SCAS m16 (40_scas.md R117). -/
def execScasM16 (a : AddrSize) (p : Prefixes) (s : State) : Host.Outcome State Fault Refusal :=
  scas .b16 a p s

/-- SCAS m32 (40_scas.md R118). -/
def execScasM32 (a : AddrSize) (p : Prefixes) (s : State) : Host.Outcome State Fault Refusal :=
  scas .b32 a p s

/-- SCAS m64 (40_scas.md R119). -/
def execScasM64 (a : AddrSize) (p : Prefixes) (s : State) : Host.Outcome State Fault Refusal :=
  scas .b64 a p s

/-- SCASB (40_scas.md R112). -/
def execScasb (a : AddrSize) (p : Prefixes) (s : State) : Host.Outcome State Fault Refusal :=
  scas .b8 a p s

/-- SCASW (40_scas.md R113). -/
def execScasw (a : AddrSize) (p : Prefixes) (s : State) : Host.Outcome State Fault Refusal :=
  scas .b16 a p s

/-- SCASD (40_scas.md R114). -/
def execScasd (a : AddrSize) (p : Prefixes) (s : State) : Host.Outcome State Fault Refusal :=
  scas .b32 a p s

/-- SCASQ (40_scas.md R115). -/
def execScasq (a : AddrSize) (p : Prefixes) (s : State) : Host.Outcome State Fault Refusal :=
  scas .b64 a p s

end Sys2Proof.Machine
end

