-- ==== Sys2Proof/Machine/RepScas.lean ====
section
/-! DEFINITION. The repeated scan instructions, one iteration per step (41_rep_scas.md). -/

namespace Sys2Proof.Machine

/-- RCX after a repeated scan whose count was zero at entry (41_rep_scas.md R133): unchanged, but that bits 63 to 32 are
unspecified for a 32-bit address size in 64-bit mode (log 9). -/
def State.rcxAfterZeroCount (s : State) (a : AddrSize) : BitVec 64 :=
  match a, s.mode with
  | .a32, .long64 => Config.rcxHighAfterZeroCount s.freeIndex ++ s.gpr.rcx.setWidth 32
  | .a32, .real | .a32, .prot | .a32, .v86 | .a32, .compat => s.gpr.rcx
  | .a16, _ | .a64, _ => s.gpr.rcx

/-- Nothing (left) to do (41_rep_scas.md R133). -/
def State.skipped (s : State) (a : AddrSize) (len : Nat) : State :=
  ({ s with gpr := { s.gpr with rcx := s.rcxAfterZeroCount a } }).advance len

/-- The flag condition that ends a repetition (41_rep_scas.md R131, R132). -/
def State.repEnds (s : State) : Rep → Bool
  | .repE => !s.flag .zf
  | .repNE => s.flag .zf

/-- The count and the continuation after one comparison (41_rep_scas.md R132): the count is decremented first, then the
count and the flag condition are tested. -/
def State.iterated (s : State) (a : AddrSize) (r : Rep) (len : Nat) : State :=
  let t := s.setCnt a (s.cnt a - 1)
  if t.cnt a = 0 ∨ t.repEnds r = true then t.advance len else t.tick

/-- `RepScasStep(N, A, rep, L)` (41_rep_scas.md R132). -/
def repScas (n : OpSize) (r : Rep) (a : AddrSize) (p : Prefixes) (s : State) : Host.Outcome State Fault Refusal :=
  unlessLocked p s <|
    if s.cnt a = 0 then .next (s.skipped a p.length)
    else andThen (scasExec n a s) fun t => .next (t.iterated a r p.length)

/-- REPE SCASB (41_rep_scas.md R136). -/
def execRepeScasb (a : AddrSize) (p : Prefixes) (s : State) : Host.Outcome State Fault Refusal :=
  repScas .b8 .repE a p s

/-- REPNE SCASB (41_rep_scas.md R137). -/
def execRepneScasb (a : AddrSize) (p : Prefixes) (s : State) : Host.Outcome State Fault Refusal :=
  repScas .b8 .repNE a p s

/-- REPE SCASW (41_rep_scas.md R138). -/
def execRepeScasw (a : AddrSize) (p : Prefixes) (s : State) : Host.Outcome State Fault Refusal :=
  repScas .b16 .repE a p s

/-- REPNE SCASW (41_rep_scas.md R139). -/
def execRepneScasw (a : AddrSize) (p : Prefixes) (s : State) : Host.Outcome State Fault Refusal :=
  repScas .b16 .repNE a p s

/-- REPE SCASD (41_rep_scas.md R140). -/
def execRepeScasd (a : AddrSize) (p : Prefixes) (s : State) : Host.Outcome State Fault Refusal :=
  repScas .b32 .repE a p s

/-- REPNE SCASD (41_rep_scas.md R141). -/
def execRepneScasd (a : AddrSize) (p : Prefixes) (s : State) : Host.Outcome State Fault Refusal :=
  repScas .b32 .repNE a p s

/-- REPE SCASQ (41_rep_scas.md R142). -/
def execRepeScasq (a : AddrSize) (p : Prefixes) (s : State) : Host.Outcome State Fault Refusal :=
  repScas .b64 .repE a p s

/-- REPNE SCASQ (41_rep_scas.md R143). -/
def execRepneScasq (a : AddrSize) (p : Prefixes) (s : State) : Host.Outcome State Fault Refusal :=
  repScas .b64 .repNE a p s

end Sys2Proof.Machine
end

