-- ==== Sys2Proof/Machine/Dispatch.lean ====
section
/-! DEFINITION. Which meaning each instruction has: one arm per constructor of Instr. -/

namespace Sys2Proof.Machine

def exec (i : Instr) (s : State) : Host.Outcome State Fault Refusal :=
  match i with
  | .scasM8 a p => Sys2Proof.Machine.execScasM8 a p s
  | .scasM16 a p => Sys2Proof.Machine.execScasM16 a p s
  | .scasM32 a p => Sys2Proof.Machine.execScasM32 a p s
  | .scasM64 a p => Sys2Proof.Machine.execScasM64 a p s
  | .scasb a p => Sys2Proof.Machine.execScasb a p s
  | .scasw a p => Sys2Proof.Machine.execScasw a p s
  | .scasd a p => Sys2Proof.Machine.execScasd a p s
  | .scasq a p => Sys2Proof.Machine.execScasq a p s
  | .repeScasb a p => Sys2Proof.Machine.execRepeScasb a p s
  | .repneScasb a p => Sys2Proof.Machine.execRepneScasb a p s
  | .repeScasw a p => Sys2Proof.Machine.execRepeScasw a p s
  | .repneScasw a p => Sys2Proof.Machine.execRepneScasw a p s
  | .repeScasd a p => Sys2Proof.Machine.execRepeScasd a p s
  | .repneScasd a p => Sys2Proof.Machine.execRepneScasd a p s
  | .repeScasq a p => Sys2Proof.Machine.execRepeScasq a p s
  | .repneScasq a p => Sys2Proof.Machine.execRepneScasq a p s

end Sys2Proof.Machine
end

