-- ==== Sys2Proof/Machine/Step.lean ====
section
/-! DEFINITION. One step of the machine, and placing an instruction where it fetches. -/

namespace Sys2Proof.Machine

/-- One step (00_scope.md R9): fetch and decode one instruction at `pc`, then execute it. At `end_pc` no instruction is
fetched (R10). -/
def step (s : State) : Host.Outcome State Fault Refusal :=
  if s.endPc = some s.pc then .refused .runEnded
  else andThen s.fetch fun i => exec i s

/-- `s` with the instruction of bits `w` placed in the program text at `pc`, and `end_pc` taken away if it stood
there: the launch's loading of a program (log 11). -/
def State.withFetchWord (s : State) (nbits w : Nat) : State :=
  { s with
    text := placeText s.text s.ip (tableBytes nbits w)
    endPc := if s.endPc = some s.pc then none else s.endPc }

end Sys2Proof.Machine
end

