-- ==== Sys2Proof/Safety.lean ====
section
/-! DEFINITION. The terms in which claims about the machine are stated: the invariant, when an operand can be read, and
what an execution writes and keeps. -/

namespace Sys2Proof.Machine

/-! ## The invariant -/

/-- The rank of an argument pair of `Translate`. -/
def PageEntry.key (e : PageEntry) : Nat :=
  4 * e.lin.toNat + e.cpl.val

/-- The canonical form of the pairs at which `Translate` is not the identity: strictly rising from `lo`, none listed at
which it is the identity. -/
def pagingWfFrom : Nat → List PageEntry → Bool
  | _, [] => true
  | lo, e :: es => lo ≤ e.key && e.result != .ok e.lin.toNat && pagingWfFrom (e.key + 1) es

/-- What a launch sets up and every step keeps: the byte maps and `Translate` in canonical form, `pc` a value of the
instruction pointer (10_state.md R24), `ES.top` one of its two values (R27), privilege level 3 in virtual-8086 mode
(R29). -/
abbrev State.Inv (s : State) : Prop :=
  Memory.wf s.mem = true ∧ rising s.text = true ∧ pagingWfFrom 0 s.paging = true
  ∧ s.pc.toNat < 2 ^ s.ipBits
  ∧ (s.es.top = 0xFFFF#32 ∨ s.es.top = 0xFFFFFFFF#32)
  ∧ (s.mode = .v86 → s.cpl = 3)

/-! ## When the operand can be read -/

/-- The translation succeeds. -/
def Translation.succeeds : Translation → Bool
  | .ok _ => true
  | .pageFault _ => false

/-- Offset `k` is a valid offset of the segment (10_state.md R27). -/
abbrev Segment.admits (es : Segment) (k : Nat) : Prop :=
  if es.expandDown = false then k ≤ es.limit.toNat else es.limit.toNat < k ∧ k ≤ es.top.toNat

/-- Neither the NULL-selector nor the illegal-address condition holds (20_memory.md R56). -/
abbrev State.SelectorOk (s : State) (off : Nat) (n : OpSize) : Prop :=
  s.mode = .prot ∨ s.mode = .compat → s.es.null = false ∧ (off, n.bytes) ∉ s.esIllegal

/-- Outside 64-bit mode: the operand does not run past the top of the offset range and every byte of it is at a valid
offset (20_memory.md R55). -/
abbrev State.LimitOk (s : State) (off : Nat) (n : OpSize) (a : AddrSize) : Prop :=
  s.mode ≠ .long64 → off + n.bytes ≤ 2 ^ a.bits ∧ ∀ k < n.bytes, s.es.admits (off + k)

/-- In 64-bit mode: the operand does not run past the top of the offset range and the address of every byte of it is
canonical (20_memory.md R56). -/
abbrev State.CanonicalOk (s : State) (off : Nat) (n : OpSize) (a : AddrSize) : Prop :=
  s.mode = .long64 → off + n.bytes ≤ 2 ^ a.bits ∧ ∀ k < n.bytes, canonical s.laBits (s.lin off k) = true

/-- The segment and canonical-form checks of the read pass: steps 1 to 3 of `ReadES` (20_memory.md R58). -/
abbrev State.SegmentOk (s : State) (off : Nat) (n : OpSize) (a : AddrSize) : Prop :=
  s.SelectorOk off n ∧ s.LimitOk off n a ∧ s.CanonicalOk off n a

/-- "alignment checking is enabled and an unaligned memory reference is made", with the privilege condition of the mode
(60_exceptions.md R150, 20_memory.md R57). -/
abbrev State.AcRaised (s : State) (off : Nat) (n : OpSize) : Prop :=
  s.alignCheckEnabled = true ∧ (s.lin off 0).toNat % n.bytes ≠ 0
  ∧ (s.mode = .v86 ∨ ((s.mode = .prot ∨ s.mode = .compat ∨ s.mode = .long64) ∧ s.cpl = 3))

/-- Every byte of the operand translates (10_state.md R31). -/
abbrev State.PagesOk (s : State) (off : Nat) (n : OpSize) : Prop :=
  ∀ k < n.bytes, (s.translate (s.lin off k)).succeeds = true

/-- The checked read of the operand succeeds (20_memory.md R58). -/
abbrev State.Readable (s : State) (off : Nat) (n : OpSize) (a : AddrSize) : Prop :=
  s.SegmentOk off n a ∧ ¬ s.AcRaised off n ∧ s.PagesOk off n

/-- The instruction reads its operand: no LOCK prefix, and a repeated form has a count that is not zero
(30_encoding.md R90, 41_rep_scas.md R133). -/
abbrev Reads (i : Instr) (s : State) : Prop :=
  i.prefixes.hasLock = false ∧ (i.rep = none ∨ s.cnt i.addrSize ≠ 0)

/-! ## What an execution writes and keeps -/

/-- The flags of `t` are those of the subtraction `x - y` (40_scas.md R111). -/
structure FlagsOfSub {N : Nat} (x y : BitVec N) (t : State) : Prop where
  cf : t.flag .cf = decide (x.toNat < y.toNat)
  of : t.flag .of = decide (x.msb ≠ y.msb ∧ (x - y).msb ≠ x.msb)
  sf : t.flag .sf = (x - y).msb
  zf : t.flag .zf = decide (x - y = 0#N)
  af : t.flag .af = decide (x.toNat % 16 < y.toNat % 16)
  pf : t.flag .pf = decide (((List.range 8).countP fun k => (x - y).getLsbD k) % 2 = 0)

/-- `new` is `old` with the view of width `A` written with `v` (10_state.md R22). -/
def ViewWritten (old new : BitVec 64) (a : AddrSize) (v : BitVec a.bits) : Prop :=
  new.setWidth a.bits = v ∧
  match a with
  | .a16 => ∀ k, 16 ≤ k → new.getLsbD k = old.getLsbD k
  | .a32 => ∀ k, 32 ≤ k → new.getLsbD k = false
  | .a64 => True

/-- Every register that is not listed keeps its value. -/
def KeepsRegsBut (rs : List Reg) (s t : State) : Prop :=
  ∀ r, r ∉ rs → t.reg r = s.reg r

/-- Every bit of EFLAGS other than the six status flags keeps its value (10_state.md R26). -/
def KeepsOtherFlagBits (s t : State) : Prop :=
  ∀ k, k ∉ [0, 2, 4, 6, 7, 11] → t.eflags.getLsbD k = s.eflags.getLsbD k

/-- ES, the control state, the launch's parameters and every byte of memory and of the program text keep their values
(10_state.md R27, R32, R33, 20_memory.md R60, R64). -/
structure KeepsRest (s t : State) : Prop where
  es : t.es = s.es
  mode : t.mode = s.mode
  csD : t.csD = s.csD
  cpl : t.cpl = s.cpl
  cr0Am : t.cr0Am = s.cr0Am
  laBits : t.laBits = s.laBits
  paging : t.paging = s.paging
  esIllegal : t.esIllegal = s.esIllegal
  endPc : t.endPc = s.endPc
  memory : ∀ a, Memory.readByte t.mem a = Memory.readByte s.mem a
  text : ∀ a, lookupCell t.text a = lookupCell s.text a

/-- `pc` of `t` is past the instruction of `len` bytes at `s` (30_encoding.md R91); where that is past the top of the
instruction-pointer range the spec gives no value (10_state.md R24), and `t.pc` is some value of that range. -/
def PcPast (s t : State) (len : Nat) : Prop :=
  if s.ip + len < 2 ^ s.ipBits then t.pc = s.pc + BitVec.ofNat 64 len
  else t.pc.toNat < 2 ^ s.ipBits

/-- The index register of `t` is that of `s` moved by one element (40_scas.md R120). -/
def IndexStepped (s t : State) (n : OpSize) (a : AddrSize) : Prop :=
  ViewWritten s.gpr.rdi t.gpr.rdi a
    (if s.flag .df = false then s.idx a + BitVec.ofNat a.bits n.bytes
     else s.idx a - BitVec.ofNat a.bits n.bytes)

/-- What one execution of a scan without a repeat prefix does (40_scas.md R110, R112 to R115). -/
structure ScanEffect (n : OpSize) (a : AddrSize) (len : Nat) (s t : State) : Prop where
  flags : FlagsOfSub (s.acc n) (s.operand (s.idx a).toNat n) t
  index : IndexStepped s t n a
  pc : PcPast s t len
  regs : KeepsRegsBut [.rdi] s t
  otherFlags : KeepsOtherFlagBits s t
  rest : KeepsRest s t

/-- The condition of a repeat prefix asks for another iteration: ZF = 1 after REPE, ZF = 0 after REPNE
(41_rep_scas.md R131). -/
def Continues (r : Rep) (t : State) : Prop :=
  match r with
  | .repE => t.flag .zf = true
  | .repNE => t.flag .zf = false

/-- What one iteration of a repeated scan does, from a count that is not zero (41_rep_scas.md R132). -/
structure IterationEffect (n : OpSize) (r : Rep) (a : AddrSize) (len : Nat) (s t : State) : Prop where
  flags : FlagsOfSub (s.acc n) (s.operand (s.idx a).toNat n) t
  index : IndexStepped s t n a
  count : ViewWritten s.gpr.rcx t.gpr.rcx a (s.cnt a - 1)
  pcStays : s.cnt a - 1 ≠ 0 → Continues r t → t.pc = s.pc
  pcPast : s.cnt a - 1 = 0 ∨ ¬ Continues r t → PcPast s t len
  regs : KeepsRegsBut [.rdi, .rcx] s t
  otherFlags : KeepsOtherFlagBits s t
  rest : KeepsRest s t

/-- What a repeated scan does when its count is zero at entry (41_rep_scas.md R133). Bits 63 to 32 of RCX are
unspecified for a 32-bit address size in 64-bit mode. -/
structure ZeroCountEffect (a : AddrSize) (len : Nat) (s t : State) : Prop where
  eflags : t.eflags = s.eflags
  rcxLow : t.gpr.rcx.setWidth 32 = s.gpr.rcx.setWidth 32
  rcx : ¬ (a = .a32 ∧ s.mode = .long64) → t.gpr.rcx = s.gpr.rcx
  pc : PcPast s t len
  regs : KeepsRegsBut [.rcx] s t
  rest : KeepsRest s t

/-- A fault that the list of the mode has (60_exceptions.md R150), with the error code the list gives it and the
instruction's address (R158). -/
def Fault.allowedIn (s : State) : Fault → Prop
  | .ud pc => pc = s.pc
  | .gp code pc => code = (if s.mode = .real then none else some 0) ∧ pc = s.pc
  | .pf code lin pc =>
    s.mode ≠ .real ∧ lookupPage s.paging lin s.cpl = some (.pageFault code) ∧ pc = s.pc
  | .ac code pc =>
    s.mode ≠ .real ∧ (s.mode ≠ .v86 → s.cpl = 3) ∧ s.alignCheckEnabled = true ∧ code = 0 ∧ pc = s.pc

/-- The same outcome with another value of ES in the next state. -/
def withEs (e : Segment) : Host.Outcome State Fault Refusal → Host.Outcome State Fault Refusal
  | .next t => .next { t with es := e }
  | .fault f => .fault f
  | .refused r => .refused r

/-- The same outcome with another value of RAX in the next state. -/
def withRax (v : BitVec 64) : Host.Outcome State Fault Refusal → Host.Outcome State Fault Refusal
  | .next t => .next { t with gpr := { t.gpr with rax := v } }
  | .fault f => .fault f
  | .refused r => .refused r

/-- The same outcome with another memory in the next state. -/
def withMem (m : List Host.Cell) : Host.Outcome State Fault Refusal → Host.Outcome State Fault Refusal
  | .next t => .next { t with mem := m }
  | .fault f => .fault f
  | .refused r => .refused r

/-- Two outcomes that are the same but for the `pc` of the next state. -/
def SameButPc : Host.Outcome State Fault Refusal → Host.Outcome State Fault Refusal → Prop
  | .next t, .next u => u = { t with pc := u.pc }
  | .fault f, .fault g => f = g
  | .refused q, .refused r => q = r
  | _, _ => False

/-- At most one legacy prefix of each kind (30_encoding.md R92): "each of the bytes F0, 66, 67 occurs at most once; at
most one byte of {F2, F3} occurs, and at most once; at most one segment-override byte occurs". -/
abbrev AtMostOneOfEachKind (ps : List Prefix) : Prop :=
  ps.count .lock ≤ 1 ∧ ps.count .opSize ≤ 1 ∧ ps.count .addrSize ≤ 1
  ∧ ps.count .repne + ps.count .repe ≤ 1
  ∧ ps.count (.seg .es) + ps.count (.seg .cs) + ps.count (.seg .ss) + ps.count (.seg .ds)
    + ps.count (.seg .fs) + ps.count (.seg .gs) ≤ 1

/-- The program text at `pc` holds the bytes of `bs`, inside the instruction-pointer range. -/
abbrev State.TextHolds (s : State) (bs : List Byte) : Prop :=
  s.ip + bs.length ≤ 2 ^ s.ipBits ∧ ∀ k (h : k < bs.length), lookupCell s.text (s.ip + k) = some bs[k]

end Sys2Proof.Machine
end

