-- ==== Sys2Proof/WellFormed.lean ====
section
/-! DEFINITION. Which instructions have words in a mode: the admitted prefixes of 30_encoding.md R92 and the agreement
of the constructor with them (R86, R87, R88, R93). -/

namespace Sys2Proof

/-- At most one legacy prefix of each kind (30_encoding.md R92). -/
def Instr.legacyOk (i : Instr) : Bool :=
  distinctKinds i.prefixes.legacy

/-- A REX prefix occurs in 64-bit mode only (30_encoding.md R85, R92). -/
def Instr.rexOk (m : Mode) (i : Instr) : Bool :=
  i.prefixes.rex.isNone || m = .long64

/-- The repeat prefix is the constructor's (41_rep_scas.md R131). -/
def Instr.repOk (i : Instr) : Bool :=
  i.prefixes.rep = i.rep

/-- The address size is the one that the mode and the prefixes select (30_encoding.md R86). -/
def Instr.addrSizeOk (m : Mode) (d : CodeSize) (i : Instr) : Bool :=
  i.addrSize = addrSizeOf m d i.prefixes

/-- The operand size is the one that the mode and the prefixes select under the constructor's opcode (30_encoding.md
R87); in particular the quadword forms need 64-bit mode and REX.W (R93). -/
def Instr.opSizeOk (m : Mode) (d : CodeSize) (i : Instr) : Bool :=
  opSizeOf m d i.prefixes i.opSize.opcode = some i.opSize

/-- The instruction can be written in mode `m` with default size `d`. -/
def WellFormed (m : Mode) (d : CodeSize) (i : Instr) : Bool :=
  i.legacyOk && i.rexOk m && i.repOk && i.addrSizeOk m d && i.opSizeOk m d

end Sys2Proof
end

