-- ==== Sys2Proof/Certificates/Slice0/Obligations.lean ====
section
/-! DEFINITION. The statements for the provers. Each docstring names the rules of spec/ that it formalises. -/

open Sys2Proof Sys2Proof.Machine

/-! ## Encoding -/

/-- The decoder gives back every well-formed instruction from its own bytes, whatever follows them, with its address
size and every prefix bit; an explicit-operand spelling comes back as the no-operands instruction of the same bytes
(30_encoding.md R80, R84 to R88, R95, R97, R99). -/
def Obligations.DecodeOfEncodeGivesInstr : Prop :=
  ∀ (m : Mode) (d : CodeSize) (i : Instr) (rest : List Byte),
    WellFormed m d i = true → decode m d (encode i ++ rest) = .ok i.noOperandsForm rest

/-- Whatever the decoder accepts is the encoding of the well-formed instruction it answers, followed by the bytes it
leaves: no two instructions share bytes and no byte is dropped (30_encoding.md R80, R92, R95). -/
def Obligations.EncodeOfDecodeGivesBytes : Prop :=
  ∀ (m : Mode) (d : CodeSize) (bs rest : List Byte) (i : Instr),
    decode m d bs = .ok i rest → bs = encode i ++ rest ∧ WellFormed m d i = true ∧ i.noOperandsForm = i

/-- Bytes written out from the chart and 30_encoding.md R81, R84, R85 decode to the instructions they stand for
(95_test_vectors.md X2, X5, X8, X14, X22, X26). -/
def Obligations.SpecBytesDecode : Prop :=
  decode .real .d16 [0xAE#8] = .ok (.scasb .a16 ⟨[], none⟩) []
  ∧ decode .real .d16 [0xAF#8] = .ok (.scasw .a16 ⟨[], none⟩) []
  ∧ decode .real .d16 [0x66#8, 0xAF#8] = .ok (.scasd .a16 ⟨[.opSize], none⟩) []
  ∧ decode .long64 .d32 [0x48#8, 0xAF#8] = .ok (.scasq .a64 ⟨[], some 8#4⟩) []
  ∧ decode .real .d16 [0xF3#8, 0xAE#8] = .ok (.repeScasb .a16 ⟨[.repe], none⟩) []
  ∧ decode .long64 .d32 [0x67#8, 0x66#8, 0xF2#8, 0x2E#8, 0x48#8, 0xAF#8]
      = .ok (.repneScasq .a32 ⟨[.addrSize, .opSize, .repne, .seg .cs], some 8#4⟩) []

/-- Legacy prefixes of which two are of one kind are refused, whatever follows (30_encoding.md R92). -/
def Obligations.TwoPrefixesOfOneKindRefused : Prop :=
  ∀ (m : Mode) (d : CodeSize) (ps : List Prefix) (rest : List Byte),
    ¬ AtMostOneOfEachKind ps → decode m d (ps.map Prefix.byte ++ rest) = .error .prefixCombination

/-- In 64-bit mode a REX byte that is followed by a legacy prefix or by a second REX byte is refused (30_encoding.md
R92). -/
def Obligations.RexNotLastRefused : Prop :=
  ∀ (d : CodeSize) (ps : List Prefix) (wrxb : BitVec 4) (b : Byte) (rest : List Byte),
    AtMostOneOfEachKind ps →
    (∃ p : Prefix, b = p.byte) ∨ (∃ v : BitVec 4, b = rexByte v) →
    decode .long64 d (ps.map Prefix.byte ++ rexByte wrxb :: b :: rest) = .error .prefixCombination

/-- Outside 64-bit mode a byte 40H to 4FH after the legacy prefixes is an opcode that is not a scan: the decoder
returns `Refused(NotScas)`, which is the "N.E." of the quadword forms there (30_encoding.md R85). -/
def Obligations.RexByteOutside64BitModeRefused : Prop :=
  ∀ (m : Mode) (d : CodeSize) (ps : List Prefix) (b : Byte) (rest : List Byte),
    m ≠ .long64 → AtMostOneOfEachKind ps → 0x40 ≤ b.toNat → b.toNat ≤ 0x4F →
    decode m d (ps.map Prefix.byte ++ b :: rest) = .error .notScas

/-- A byte after the prefixes that is no prefix byte of the mode and neither AE nor AF is refused as no scan. The prefixes
are legacy prefixes and, in 64-bit mode, a REX byte or none (30_encoding.md R81, R95). -/
def Obligations.OtherOpcodeRefused : Prop :=
  ∀ (m : Mode) (d : CodeSize) (ps : List Prefix) (rex : Option (BitVec 4)) (b : Byte) (rest : List Byte),
    AtMostOneOfEachKind ps → (rex ≠ none → m = .long64) → (∀ p : Prefix, b ≠ p.byte) →
    (m = .long64 → b.toNat < 0x40 ∨ 0x4F < b.toNat) → b ≠ 0xAE#8 → b ≠ 0xAF#8 →
    decode m d (ps.map Prefix.byte ++ (rex.map rexByte).toList ++ b :: rest) = .error .notScas

/-- The address size of a decoded instruction: 64-bit mode 64, or 32 with 67H; elsewhere the default size, or the other
of {16, 32} with 67H (30_encoding.md R86). -/
def Obligations.AddressSizeSelected : Prop :=
  ∀ (m : Mode) (d : CodeSize) (bs rest : List Byte) (i : Instr),
    decode m d bs = .ok i rest →
    (m = .long64 → i.addrSize = if .addrSize ∈ i.prefixes.legacy then .a32 else .a64)
    ∧ (m ≠ .long64 → d = .d16 → i.addrSize = if .addrSize ∈ i.prefixes.legacy then .a32 else .a16)
    ∧ (m ≠ .long64 → d = .d32 → i.addrSize = if .addrSize ∈ i.prefixes.legacy then .a16 else .a32)

/-- The operand size of a decoded instruction: 8 for AE whatever the prefixes; for AF in 64-bit mode 64 under REX.W,
else 16 with 66H, else 32; for AF elsewhere the default size, or the other of {16, 32} with 66H (30_encoding.md R87).
The opcode byte is the last byte of the instruction. -/
def Obligations.OperandSizeSelected : Prop :=
  ∀ (m : Mode) (d : CodeSize) (pre rest : List Byte) (op : Byte) (i : Instr),
    decode m d (pre ++ op :: rest) = .ok i rest →
    (op = 0xAE#8 ∧ i.opSize = .b8)
    ∨ (op = 0xAF#8 ∧
      (m = .long64 → i.opSize =
        if (∃ v ∈ i.prefixes.rex, v.getLsbD 3 = true) then .b64
        else if .opSize ∈ i.prefixes.legacy then .b16 else .b32)
      ∧ (m ≠ .long64 → d = .d16 → i.opSize = if .opSize ∈ i.prefixes.legacy then .b32 else .b16)
      ∧ (m ≠ .long64 → d = .d32 → i.opSize = if .opSize ∈ i.prefixes.legacy then .b16 else .b32))

/-- Validity by mode: AE and AF without REX are a byte scan and a word or doubleword scan in every mode; REX.W + AF is a
quadword scan in 64-bit mode, and outside it no bytes are one (30_encoding.md R93). -/
def Obligations.ValidityByMode : Prop :=
  (∀ m d, ∃ a, decode m d [0xAE#8] = .ok (.scasb a ⟨[], none⟩) [])
  ∧ (∀ m d, ∃ a, decode m d [0xAF#8] = .ok (.scasw a ⟨[], none⟩) [] ∨ decode m d [0xAF#8] = .ok (.scasd a ⟨[], none⟩) [])
  ∧ (∀ d w, rexW w = true → decode .long64 d [rexByte w, 0xAF#8] = .ok (.scasq .a64 ⟨[], some w⟩) [])
  ∧ (∀ m d bs i rest, decode m d bs = .ok i rest → i.opSize = .b64 → m = .long64)

/-- A decoded instruction takes up its length, the number of prefix bytes plus 1: at least 1 byte, at most 7, and at most
6 without LOCK (30_encoding.md R82, R91). -/
def Obligations.LengthOfDecodedInstr : Prop :=
  ∀ (m : Mode) (d : CodeSize) (bs rest : List Byte) (i : Instr),
    decode m d bs = .ok i rest →
    bs.length = i.prefixes.length + rest.length
    ∧ i.prefixes.length = i.prefixes.encode.length + 1
    ∧ 1 ≤ i.prefixes.length ∧ i.prefixes.length ≤ 7
    ∧ (Prefix.lock ∉ i.prefixes.legacy → i.prefixes.length ≤ 6)

/-! ## Steps -/

/-- When the program text at `pc` holds the bytes of a well-formed instruction and `pc` is not `end_pc`, a step is the
execution of that instruction, and nothing around it (00_scope.md R9, R10). -/
def Obligations.StepRunsDecodedInstr : Prop :=
  ∀ (s : State) (i : Instr),
    WellFormed s.mode s.csD i = true → s.TextHolds (encode i) → s.endPc ≠ some s.pc →
    step s = exec i.noOperandsForm s

/-- A step that does not find an instruction is refused by name: at bytes that the decoder refuses (00_scope.md R9); at
`end_pc`, where no instruction is fetched (R10), which the model answers with the refusal `runEnded`; where the text
ends before an opcode byte, at `pc` or after prefixes, with `noProgramText` below the top of the instruction-pointer
range and with `textCrossesTop` at it (10_state.md R24). That `end_pc` and a missing byte of the text are refusals, and
their names, are the model's DESIGN CHOICE (log 11); that the step at the top is refused, where R24 refuses the launch,
is that of log 10. -/
def Obligations.StepRefusesByName : Prop :=
  ∀ (s : State),
    (s.endPc = some s.pc → step s = .refused .runEnded)
    ∧ (s.endPc ≠ some s.pc → decode s.mode s.csD s.fetchBytes = .error .notScas → step s = .refused .notScas)
    ∧ (s.endPc ≠ some s.pc → decode s.mode s.csD s.fetchBytes = .error .prefixCombination →
        step s = .refused .prefixCombination)
    ∧ (s.endPc ≠ some s.pc → decode s.mode s.csD s.fetchBytes = .error .truncated →
        step s = .refused (if s.ip + s.fetchBytes.length < 2 ^ s.ipBits then .noProgramText else .textCrossesTop))
    ∧ (s.endPc ≠ some s.pc → lookupCell s.text s.ip = none → step s = .refused .noProgramText)

/-- A LOCK prefix raises #UD under every instruction, in every mode, whatever the state is, with nothing recorded but
the address of the instruction (60_exceptions.md R151). -/
def Obligations.LockRaisesInvalidOpcode : Prop :=
  ∀ (i : Instr) (s : State), .lock ∈ i.prefixes.legacy → exec i s = .fault (.ud s.pc)

/-! ## The instructions -/

/-- SCASB and SCAS m8 complete when the byte at the index register is readable, with the flags of AL minus the byte, the
index register moved by 1, `pc` past the instruction, and everything else as it was (40_scas.md R110 to R112, R116,
R120). -/
def Obligations.ScasbCompletes : Prop :=
  ∀ (a : AddrSize) (p : Prefixes) (s : State),
    p.hasLock = false → s.Readable (s.idx a).toNat .b8 a →
    ∃ t, exec (.scasb a p) s = .next t ∧ exec (.scasM8 a p) s = .next t ∧ ScanEffect .b8 a p.length s t

/-- SCASW and SCAS m16 complete when the word at the index register is readable, with the flags of AX minus the
word, the index register moved by 2, `pc` past the instruction, and everything else as it was (40_scas.md R110, R111,
R113, R117, R120). -/
def Obligations.ScaswCompletes : Prop :=
  ∀ (a : AddrSize) (p : Prefixes) (s : State),
    p.hasLock = false → s.Readable (s.idx a).toNat .b16 a →
    ∃ t, exec (.scasw a p) s = .next t ∧ exec (.scasM16 a p) s = .next t ∧ ScanEffect .b16 a p.length s t

/-- SCASD and SCAS m32 complete when the doubleword at the index register is readable, with the flags of EAX minus the
doubleword, the index register moved by 4, `pc` past the instruction, and everything else as it was (40_scas.md R110, R111,
R114, R118, R120). -/
def Obligations.ScasdCompletes : Prop :=
  ∀ (a : AddrSize) (p : Prefixes) (s : State),
    p.hasLock = false → s.Readable (s.idx a).toNat .b32 a →
    ∃ t, exec (.scasd a p) s = .next t ∧ exec (.scasM32 a p) s = .next t ∧ ScanEffect .b32 a p.length s t

/-- SCASQ and SCAS m64 complete when the quadword at the index register is readable, with the flags of RAX minus the
quadword, the index register moved by 8, `pc` past the instruction, and everything else as it was (40_scas.md R110, R111,
R115, R119, R120). -/
def Obligations.ScasqCompletes : Prop :=
  ∀ (a : AddrSize) (p : Prefixes) (s : State),
    p.hasLock = false → s.Readable (s.idx a).toNat .b64 a →
    ∃ t, exec (.scasq a p) s = .next t ∧ exec (.scasM64 a p) s = .next t ∧ ScanEffect .b64 a p.length s t

/-- An iteration of REPE SCASB and of REPNE SCASB with a count that is not zero completes when the byte is readable: the
comparison, the count less 1, and `pc` past the instruction exactly when the count is used up or the condition ends the
repetition (41_rep_scas.md R130 to R132, R136, R137). -/
def Obligations.RepeatedScasbIterates : Prop :=
  ∀ (a : AddrSize) (p : Prefixes) (s : State),
    p.hasLock = false → s.cnt a ≠ 0 → s.Readable (s.idx a).toNat .b8 a →
    (∃ t, exec (.repeScasb a p) s = .next t ∧ IterationEffect .b8 .repE a p.length s t)
    ∧ (∃ t, exec (.repneScasb a p) s = .next t ∧ IterationEffect .b8 .repNE a p.length s t)

/-- An iteration of REPE SCASW and of REPNE SCASW with a count that is not zero completes when the word is
readable: the comparison, the count less 1, and `pc` past the instruction exactly when the count is used up or the
condition ends the repetition (41_rep_scas.md R130 to R132, R138, R139). -/
def Obligations.RepeatedScaswIterates : Prop :=
  ∀ (a : AddrSize) (p : Prefixes) (s : State),
    p.hasLock = false → s.cnt a ≠ 0 → s.Readable (s.idx a).toNat .b16 a →
    (∃ t, exec (.repeScasw a p) s = .next t ∧ IterationEffect .b16 .repE a p.length s t)
    ∧ (∃ t, exec (.repneScasw a p) s = .next t ∧ IterationEffect .b16 .repNE a p.length s t)

/-- An iteration of REPE SCASD and of REPNE SCASD with a count that is not zero completes when the doubleword is
readable: the comparison, the count less 1, and `pc` past the instruction exactly when the count is used up or the
condition ends the repetition (41_rep_scas.md R130 to R132, R140, R141). -/
def Obligations.RepeatedScasdIterates : Prop :=
  ∀ (a : AddrSize) (p : Prefixes) (s : State),
    p.hasLock = false → s.cnt a ≠ 0 → s.Readable (s.idx a).toNat .b32 a →
    (∃ t, exec (.repeScasd a p) s = .next t ∧ IterationEffect .b32 .repE a p.length s t)
    ∧ (∃ t, exec (.repneScasd a p) s = .next t ∧ IterationEffect .b32 .repNE a p.length s t)

/-- An iteration of REPE SCASQ and of REPNE SCASQ with a count that is not zero completes when the quadword is
readable: the comparison, the count less 1, and `pc` past the instruction exactly when the count is used up or the
condition ends the repetition (41_rep_scas.md R130 to R132, R142, R143). -/
def Obligations.RepeatedScasqIterates : Prop :=
  ∀ (a : AddrSize) (p : Prefixes) (s : State),
    p.hasLock = false → s.cnt a ≠ 0 → s.Readable (s.idx a).toNat .b64 a →
    (∃ t, exec (.repeScasq a p) s = .next t ∧ IterationEffect .b64 .repE a p.length s t)
    ∧ (∃ t, exec (.repneScasq a p) s = .next t ∧ IterationEffect .b64 .repNE a p.length s t)

/-- A repeated scan whose count is zero at entry completes whatever its operand is: no flag is written, the index
register and memory keep their values, RCX keeps its value (but for bits 63 to 32 under a 32-bit address size in 64-bit
mode, which are unspecified), and `pc` moves past the instruction (41_rep_scas.md R133). -/
def Obligations.ZeroCountSkips : Prop :=
  ∀ (i : Instr) (s : State),
    i.rep ≠ none → i.prefixes.hasLock = false → s.cnt i.addrSize = 0 →
    ∃ t, exec i s = .next t ∧ ZeroCountEffect i.addrSize i.prefixes.length s t

/-- Each explicit-operand spelling is the no-operands instruction of its size: the same bytes, valid in the same modes,
the same semantics in every respect (40_scas.md R116 to R119). -/
def Obligations.SpellingsAgree : Prop :=
  ∀ (a : AddrSize) (p : Prefixes) (i j : Instr),
    (i, j) ∈ [(Instr.scasM8 a p, Instr.scasb a p), (.scasM16 a p, .scasw a p), (.scasM32 a p, .scasd a p),
      (.scasM64 a p, .scasq a p)] →
    encode i = encode j ∧ (∀ m d, WellFormed m d i = WellFormed m d j) ∧ (∀ s, exec i s = exec j s)
    ∧ (j = .scasb a p → encode j = p.encode ++ [0xAE#8]) ∧ (j ≠ .scasb a p → encode j = p.encode ++ [0xAF#8])
    ∧ (∀ m d, j = .scasq a p → WellFormed m d j = true → m = .long64)

/-- Segment override prefixes are accepted and have no effect. Put anywhere among the legacy prefixes of an instruction
that has none, one gives bytes that decode to the same instruction with that prefix. It changes nothing but the length:
the same fault or refusal, and the same next state but for `pc`, which for a scan without a repeat prefix is 1 further
(30_encoding.md R89). -/
def Obligations.SegmentOverrideHasNoEffect : Prop :=
  ∀ (n : OpSize) (r : Option Rep) (a : AddrSize) (front back : List Prefix) (rex : Option (BitVec 4)) (g : SegReg),
    (∀ m d rest, WellFormed m d (instrOf n r a ⟨front ++ back, rex⟩) = true → (∀ h, Prefix.seg h ∉ front ++ back) →
      decode m d (encode (instrOf n r a ⟨front ++ .seg g :: back, rex⟩) ++ rest)
        = .ok (instrOf n r a ⟨front ++ .seg g :: back, rex⟩) rest)
    ∧ (∀ s, SameButPc (exec (instrOf n r a ⟨front ++ back, rex⟩) s)
        (exec (instrOf n r a ⟨front ++ .seg g :: back, rex⟩) s))
    ∧ ∀ s t u, r = none → s.ip + (Prefixes.length ⟨front ++ .seg g :: back, rex⟩) < 2 ^ s.ipBits →
      exec (instrOf n r a ⟨front ++ back, rex⟩) s = .next t →
      exec (instrOf n r a ⟨front ++ .seg g :: back, rex⟩) s = .next u →
      u.pc = t.pc + 1

/-- Every execution that makes a comparison replaces the index register view of width `A` by `off + n` when DF = 0 and by
`off - n` when DF = 1, modulo `2^A`, with the bits above the view kept for `A = 16` and zeroed for `A = 32`; `n` is the
operand size in bytes, whatever the address size is (40_scas.md R120). -/
def Obligations.IndexUpdate : Prop :=
  ∀ (i : Instr) (s : State), Reads i s → s.Readable (s.idx i.addrSize).toNat i.opSize i.addrSize →
    ∃ t, exec i s = .next t ∧
      (t.idx i.addrSize).toNat =
        (if s.flag .df = false then (s.idx i.addrSize).toNat + i.opSize.bytes
         else (s.idx i.addrSize).toNat + 2 ^ i.addrSize.bits - i.opSize.bytes) % 2 ^ i.addrSize.bits
      ∧ (i.addrSize = .a16 → ∀ k, 16 ≤ k → t.gpr.rdi.getLsbD k = s.gpr.rdi.getLsbD k)
      ∧ (i.addrSize = .a32 → ∀ k, 32 ≤ k → t.gpr.rdi.getLsbD k = false)

/-! ## Flags and views -/

/-- The six status flags of `a - b` at each operand size, with wrap-around: CF the borrow out of the top bit, OF the
signed overflow, SF and ZF of the difference, AF the borrow out of bit 3, PF of the low byte. CF reports the unsigned
outcome, OF with SF the signed one (40_scas.md R111). -/
def Obligations.SubtractionFlags : Prop :=
  ∀ (n : OpSize) (a b : BitVec n.bits),
    (a - b).toNat = (2 ^ n.bits + a.toNat - b.toNat) % 2 ^ n.bits
    ∧ (subFlags a b).cf = decide (a.toNat < b.toNat)
    ∧ (subFlags a b).of = decide (a.msb ≠ b.msb ∧ (a - b).msb ≠ a.msb)
    ∧ (subFlags a b).sf = (a - b).msb
    ∧ (subFlags a b).zf = decide (a - b = 0#n.bits) ∧ (subFlags a b).zf = decide (a = b)
    ∧ (subFlags a b).af = decide (a.toNat % 16 < b.toNat % 16)
    ∧ (subFlags a b).af = (a ^^^ b ^^^ (a - b)).getLsbD 4
    ∧ (subFlags a b).pf = decide (((List.range 8).countP fun k => (a - b).getLsbD k) % 2 = 0)
    ∧ ((subFlags a b).of = true ↔
      a.toInt - b.toInt < -(2 : Int) ^ (n.bits - 1) ∨ (2 : Int) ^ (n.bits - 1) ≤ a.toInt - b.toInt)
    ∧ ((subFlags a b).sf ≠ (subFlags a b).of ↔ a.toInt < b.toInt)

/-- Writing the status flags puts each at its place in EFLAGS and keeps every other bit (10_state.md R25, R26). -/
def Obligations.StatusWriteKeepsOtherBits : Prop :=
  ∀ (v : BitVec 32) (f : StatusFlags) (k : Nat),
    (writeStatus v f).getLsbD k =
      if k = 0 then f.cf else if k = 2 then f.pf else if k = 4 then f.af else if k = 6 then f.zf
      else if k = 7 then f.sf else if k = 11 then f.of else v.getLsbD k

/-- Writing a register view: a 16-bit write keeps bits 63 to 16, a 32-bit write zeroes bits 63 to 32, a 64-bit write
replaces all, of RDI by `SetIdx` and of RCX by `SetCnt`, and no other register changes (10_state.md R22). -/
def Obligations.ViewWrites : Prop :=
  ∀ (s : State) (a : AddrSize) (v : BitVec a.bits),
    ViewWritten s.gpr.rdi (s.setIdx a v).gpr.rdi a v ∧ KeepsRegsBut [.rdi] s (s.setIdx a v)
    ∧ ViewWritten s.gpr.rcx (s.setCnt a v).gpr.rcx a v ∧ KeepsRegsBut [.rcx] s (s.setCnt a v)

/-! ## The operand -/

/-- `MemRead` is little-endian: bits `8i+7` to `8i` of the value are the byte at `addr + i` (20_memory.md R51). -/
def Obligations.MemReadIsLittleEndian : Prop :=
  ∀ (m : List Host.Cell) (addr n i : Nat), i < n →
    (Memory.read m addr n).extractLsb' (8 * i) 8 = Memory.readByte m (addr + i)

/-- The memory operand, when every byte of it translates, holds in bits `8k+7` to `8k` the byte at the physical address
of its byte `k` (20_memory.md R51, R58 step 5). -/
def Obligations.OperandBytes : Prop :=
  ∀ (s : State) (off : Nat) (n : OpSize), s.PagesOk off n → ∀ k < n.bytes, ∃ p,
    s.translate (s.lin off k) = .ok p ∧ (s.operand off n).extractLsb' (8 * k) 8 = Memory.readByte s.mem p

/-- The linear address of byte `i`: outside 64-bit mode the ES base plus the offset modulo `2^32`, in 64-bit mode the
offset alone (20_memory.md R53, R54). -/
def Obligations.LinearAddress : Prop :=
  ∀ (s : State) (off i : Nat),
    (s.mode ≠ .long64 → (s.lin off i).toNat = (s.es.base.toNat + off + i) % 2 ^ 32)
    ∧ (s.mode = .long64 → off + i < 2 ^ 64 → (s.lin off i).toNat = off + i)

/-- An address is canonical exactly when its bits 63 down to `LA_BITS - 1` are all equal (20_memory.md R56). -/
def Obligations.CanonicalForm : Prop :=
  ∀ (la : LaBits) (x : BitVec 64),
    canonical la x = true ↔ ∀ k, la.width - 1 ≤ k → k < 64 → x.getLsbD k = x.getLsbD 63

/-- The limit verdict. In the ordinary case it is `Inside` exactly when every byte of the operand is at a valid offset,
and `Outside` otherwise. In the wrapping case it is never `Inside`; it is `Outside` under the conditions the rule lists
and `Unknown` otherwise (20_memory.md R55). -/
def Obligations.LimitVerdict : Prop :=
  ∀ (es : Segment) (off : Nat) (n : OpSize) (a : AddrSize), off < 2 ^ a.bits →
    (off + n.bytes ≤ 2 ^ a.bits →
      limitVerdict es off n.bytes a =
        if (∀ k < n.bytes, es.admits (off + k)) then .inside else .outside)
    ∧ (2 ^ a.bits < off + n.bytes → es.expandDown = false →
      limitVerdict es off n.bytes a =
        if es.limit.toNat < off + n.bytes - 1 ∧ es.limit ≠ 0xFFFFFFFF#32 then .outside else .unknown)
    ∧ (2 ^ a.bits < off + n.bytes → es.expandDown = true →
      limitVerdict es off n.bytes a =
        if off ≤ es.limit.toNat ∨ (es.top.toNat < off + n.bytes - 1 ∧ es.top = 0xFFFF#32) then .outside
        else .unknown)

/-! ## Exceptions -/

/-- In protected and compatibility mode a NULL ES selector raises #GP(0) before every other check of the read
(20_memory.md R56, R58). -/
def Obligations.NullSelectorRaisesGp : Prop :=
  ∀ (i : Instr) (s : State), Reads i s → s.mode = .prot ∨ s.mode = .compat → s.es.null = true →
    exec i s = .fault (.gp (some 0) s.pc)

/-- Outside 64-bit mode, past the NULL-selector check, an operand outside the limit of ES raises #GP, with no error code
in real-address mode and 0 elsewhere; where the verdict is unknown the step is refused (20_memory.md R55, R58;
60_exceptions.md R152). -/
def Obligations.LimitRaisesGp : Prop :=
  ∀ (i : Instr) (s : State), Reads i s → s.mode ≠ .long64 →
    ((s.mode = .prot ∨ s.mode = .compat) → s.es.null = false) →
    (limitVerdict s.es (s.idx i.addrSize).toNat i.opSize.bytes i.addrSize = .outside →
      exec i s = .fault (.gp (if s.mode = .real then none else some 0) s.pc))
    ∧ (limitVerdict s.es (s.idx i.addrSize).toNat i.opSize.bytes i.addrSize = .unknown →
      exec i s = .refused .operandWrapsOffsetRange)

/-- In 64-bit mode an operand whose first address is non-canonical raises #GP(0); one whose first address is canonical
and that runs past the top of the offset range or into a non-canonical address is refused (20_memory.md R56). -/
def Obligations.NonCanonicalRaisesGp : Prop :=
  ∀ (i : Instr) (s : State), Reads i s → s.mode = .long64 →
    (canonical s.laBits (s.lin (s.idx i.addrSize).toNat 0) = false → exec i s = .fault (.gp (some 0) s.pc))
    ∧ (canonical s.laBits (s.lin (s.idx i.addrSize).toNat 0) = true →
      (2 ^ i.addrSize.bits < (s.idx i.addrSize).toNat + i.opSize.bytes
        ∨ ∃ k < i.opSize.bytes, canonical s.laBits (s.lin (s.idx i.addrSize).toNat k) = false) →
      exec i s = .refused .operandWrapsOffsetRange)

/-- In protected and compatibility mode an effective address for which `EsIllegal` holds raises #GP(0) when the NULL and
limit checks pass (20_memory.md R56, R58). -/
def Obligations.IllegalAddressRaisesGp : Prop :=
  ∀ (i : Instr) (s : State), Reads i s → s.mode = .prot ∨ s.mode = .compat → s.es.null = false →
    s.LimitOk (s.idx i.addrSize).toNat i.opSize i.addrSize →
    ((s.idx i.addrSize).toNat, i.opSize.bytes) ∈ s.esIllegal →
    exec i s = .fault (.gp (some 0) s.pc)

/-- When the segment checks pass and every byte translates, #AC(0) is raised exactly when alignment checking is enabled
and the reference is unaligned, at privilege level 3 in protected, compatibility and 64-bit mode and at any in
virtual-8086 mode. No byte form raises it in any state, and none raises it in real-address mode
(60_exceptions.md R156). -/
def Obligations.AlignmentCheckRaisedExactly : Prop :=
  ∀ (i : Instr) (s : State),
    (Reads i s → s.SegmentOk (s.idx i.addrSize).toNat i.opSize i.addrSize →
      s.PagesOk (s.idx i.addrSize).toNat i.opSize →
      (exec i s = .fault (.ac 0 s.pc) ↔ s.AcRaised (s.idx i.addrSize).toNat i.opSize))
    ∧ (i.opSize = .b8 ∨ s.mode = .real → ∀ code pc, exec i s ≠ .fault (.ac code pc))

/-- When the segment checks pass and some byte of the operand does not translate, a page fault of some failing byte is
raised, with the code that `Translate` gave and the linear address of that byte; if the reference also raises #AC, the
outcome is that page fault or #AC(0) (60_exceptions.md R155, R159). -/
def Obligations.UntranslatedRaisesPf : Prop :=
  ∀ (i : Instr) (s : State), Reads i s →
    s.SegmentOk (s.idx i.addrSize).toNat i.opSize i.addrSize → ¬ s.PagesOk (s.idx i.addrSize).toNat i.opSize →
    (∃ k code, k < i.opSize.bytes
      ∧ s.translate (s.lin (s.idx i.addrSize).toNat k) = .pageFault code
      ∧ exec i s = .fault (.pf code (s.lin (s.idx i.addrSize).toNat k) s.pc))
    ∨ (s.AcRaised (s.idx i.addrSize).toNat i.opSize ∧ exec i s = .fault (.ac 0 s.pc))

/-- Every fault of a step is one that the list of the mode has, with the error code of the list and the address of the
instruction: in real-address mode #UD and #GP without a code alone; a page fault only where `Translate` gives it; #AC
only with checking enabled and, outside virtual-8086 mode, at privilege level 3 (60_exceptions.md R150, R158). -/
def Obligations.FaultsAreThoseOfTheMode : Prop :=
  ∀ (s : State) (f : Fault), step s = .fault f → f.allowedIn s

/-! ## The whole machine -/

/-- No step changes a register but RDI and RCX, a bit of EFLAGS but the six status flags, or any of ES, the control
state, the launch's parameters, memory and the program text (10_state.md R23, R26, R32; 20_memory.md R60, R64). -/
def Obligations.StepWritesOnlyScanState : Prop :=
  ∀ (s t : State), step s = .next t →
    KeepsRegsBut [.rdi, .rcx] s t ∧ KeepsOtherFlagBits s t ∧ KeepsRest s t

/-- Every step keeps the invariant. -/
def Obligations.StepKeepsInvariant : Prop :=
  ∀ (s t : State), s.Inv → step s = .next t → t.Inv

/-- The state after reset has the invariant. Its values are the model's choice (log 2), which follow 10_state.md R36. -/
def Obligations.ResetHasInvariant : Prop :=
  State.reset.Inv

/-- The state after reset: the values that 10_state.md R36 lists for orientation, which the model takes (log 2). -/
def Obligations.ResetValues : Prop :=
  State.reset.gpr.rax = 0 ∧ State.reset.gpr.rcx = 0 ∧ State.reset.gpr.rdi = 0
  ∧ State.reset.pc = 0xFFF0 ∧ State.reset.eflags = 0x00000002 ∧ State.reset.mode = .real
  ∧ State.reset.csD = .d16 ∧ State.reset.cpl = 0 ∧ State.reset.alignCheckEnabled = false
  ∧ State.reset.es.selector = 0 ∧ State.reset.es.base = 0 ∧ State.reset.es.limit = 0xFFFF
  ∧ State.reset.es.expandDown = false ∧ ∀ lin, State.reset.translate lin = .ok lin.toNat

/-- Each step of a run either leaves `pc` where it is and makes the count of a repeated scan 1 less, or takes `pc` past
the instruction (70_reset_and_hazards.md R187, 41_rep_scas.md R134). -/
def Obligations.StepAdvancesOrCountsDown : Prop :=
  ∀ (s t : State), step s = .next t →
    ∃ (i : Instr) (rest : List Byte), decode s.mode s.csD s.fetchBytes = .ok i rest ∧
      (PcPast s t i.prefixes.length
      ∨ (i.rep ≠ none ∧ t.pc = s.pc ∧ (t.cnt i.addrSize).toNat + 1 = (s.cnt i.addrSize).toNat
        ∧ t.cnt i.addrSize ≠ 0))

/-- A repeated scan is left: after at most as many steps as its count says, and at least one, the machine is past the
instruction or has stopped at a fault or a refusal, which may be any (41_rep_scas.md R134). -/
def Obligations.RepeatedScanIsLeft : Prop :=
  ∀ (s : State) (i : Instr),
    WellFormed s.mode s.csD i = true → i.rep ≠ none → s.TextHolds (encode i) → s.endPc ≠ some s.pc →
    s.ip + i.prefixes.length < 2 ^ s.ipBits →
    ∃ k, 1 ≤ k ∧ k ≤ max 1 (s.cnt i.addrSize).toNat ∧
      match Sys2Proof.core.run k s with
      | .next t => t.pc = s.pc + BitVec.ofNat 64 i.prefixes.length
      | .fault _ => True
      | .refused _ => True

/-- In 64-bit mode ES takes no part: with another ES an instruction has the same outcome (20_memory.md R54). -/
def Obligations.LongModeIgnoresEs : Prop :=
  ∀ (i : Instr) (s : State) (e : Segment), s.mode = .long64 →
    exec i { s with es := e } = withEs e (exec i s)

/-- The bits of RAX above the view take no part: with another RAX of the same low `N` bits an instruction has the same
outcome, RAX kept (10_state.md R21, 40_scas.md R110). -/
def Obligations.UpperAccumulatorBitsIgnored : Prop :=
  ∀ (i : Instr) (s : State) (v : BitVec 64),
    v.setWidth i.opSize.bits = s.gpr.rax.setWidth i.opSize.bits →
    exec i { s with gpr := { s.gpr with rax := v } } = withRax v (exec i s)

/-- The complete list of memory that an instruction reads is the bytes of its operand: with another memory that agrees
at their physical addresses it has the same outcome, memory kept (40_scas.md R110). -/
def Obligations.OnlyOperandBytesRead : Prop :=
  ∀ (i : Instr) (s : State) (m : List Host.Cell),
    (∀ k < i.opSize.bytes, ∀ x, s.translate (s.lin (s.idx i.addrSize).toNat k) = .ok x →
      Memory.readByte m x = Memory.readByte s.mem x) →
    exec i { s with mem := m } = withMem m (exec i s)

/-- Data memory, in canonical form, reads back what was written and keeps every other byte and its form: equal contents
are equal lists (log 5 for what an unlisted address reads as). -/
def Obligations.MemoryReadsBackWrites : Prop :=
  ∀ (m : List Host.Cell) (a : Nat) (b : Byte), Memory.wf m = true →
    Memory.readByte (Memory.writeByte m a b) a = b
    ∧ (∀ a', a' ≠ a → Memory.readByte (Memory.writeByte m a b) a' = Memory.readByte m a')
    ∧ Memory.wf (Memory.writeByte m a b) = true
    ∧ ∀ m', Memory.wf m' = true → (∀ x, Memory.readByte m' x = Memory.readByte m x) → m' = m

/-- Translation of a linear address at the current privilege level: the identity in real-address mode, whatever is
listed; elsewhere the launch's answer at that pair, and the identity where the launch lists none (10_state.md R31). That
the launch lists the pairs, the first of them counting, is the model's representation of `Translate` (log 3); in its
canonical form a pair is listed once. -/
def Obligations.TranslateAnswers : Prop :=
  ∀ (s : State) (lin : BitVec 64),
    (s.mode = .real → s.translate lin = .ok lin.toNat)
    ∧ (s.mode ≠ .real → ∀ front back t, s.paging = front ++ { lin := lin, cpl := s.cpl, result := t } :: back →
      (∀ e ∈ front, e.lin ≠ lin ∨ e.cpl ≠ s.cpl) → s.translate lin = t)
    ∧ (s.mode ≠ .real → pagingWfFrom 0 s.paging = true →
      ∀ e ∈ s.paging, e.lin = lin → e.cpl = s.cpl → s.translate lin = e.result)
    ∧ (s.mode ≠ .real → (∀ e ∈ s.paging, e.lin ≠ lin ∨ e.cpl ≠ s.cpl) → s.translate lin = .ok lin.toNat)
end

