-- ==== Sys2Proof/Laws/Decode.lean ====
section
/-! SUPPORT. The small laws of the decoder's tables: a prefix byte reads back as its prefix and is no REX byte, a REX
byte reads back its bits, and an opcode byte is neither. -/

namespace Sys2Proof

@[simp] theorem legacyPrefix?_byte (p : Prefix) : legacyPrefix? p.byte = some p := by
  cases p with
  | seg r => cases r <;> decide
  | _ => decide

theorem byte_of_legacyPrefix? {b : Byte} {p : Prefix} (h : legacyPrefix? b = some p) : p.byte = b := by
  have := List.find?_some h
  exact eq_of_beq this

theorem mem_legacyPrefixes (p : Prefix) : p ∈ legacyPrefixes := by
  cases p with
  | seg r => cases r <;> decide
  | _ => decide

/-- A byte is no legacy prefix when it is the byte of none. -/
theorem legacyPrefix?_eq_none {b : Byte} : legacyPrefix? b = none ↔ ∀ p : Prefix, b ≠ p.byte := by
  rw [legacyPrefix?, List.find?_eq_none]
  constructor
  · intro h p e
    exact h p (mem_legacyPrefixes p) (by simp [e])
  · intro h p _ e
    exact h p (eq_of_beq e).symm

@[simp] theorem isRexByte_rexByte (v : BitVec 4) : isRexByte (rexByte v) = true := by
  revert v; decide

@[simp] theorem extract_rexByte (v : BitVec 4) : (rexByte v).extractLsb' 0 4 = v := by
  revert v; decide

@[simp] theorem legacyPrefix?_rexByte (v : BitVec 4) : legacyPrefix? (rexByte v) = none := by
  revert v; decide

/-- A byte 40H to 4FH is the REX byte of its low four bits. -/
theorem rexByte_of_isRexByte {b : Byte} (h : isRexByte b = true) : rexByte (b.extractLsb' 0 4) = b := by
  revert b; decide

theorem isRexByte_iff (b : Byte) : isRexByte b = true ↔ 0x40 ≤ b.toNat ∧ b.toNat ≤ 0x4F := by
  revert b; decide

@[simp] theorem legacyPrefix?_opcode (n : OpSize) : legacyPrefix? n.opcode = none := by
  cases n <;> decide

@[simp] theorem isRexByte_opcode (n : OpSize) : isRexByte n.opcode = false := by
  cases n <;> decide

theorem Prefix.sameKind_comm (p q : Prefix) : p.sameKind q = q.sameKind p := by
  cases p <;> cases q <;> rfl

theorem distinctKinds_append_singleton (ps : List Prefix) (q : Prefix) :
    distinctKinds (ps ++ [q]) = (distinctKinds ps && !(ps.any q.sameKind)) := by
  induction ps with
  | nil => simp [distinctKinds]
  | cons p ps ih =>
    simp only [List.cons_append, distinctKinds, ih, List.any_append, List.any_cons, List.any_nil, Bool.or_false,
      Prefix.sameKind_comm q p]
    cases p.sameKind q <;> cases ps.any p.sameKind <;> cases ps.any q.sameKind <;> cases distinctKinds ps <;> rfl

theorem distinctKinds_of_append {ps qs : List Prefix} (h : distinctKinds (ps ++ qs) = true) :
    distinctKinds ps = true := by
  induction ps with
  | nil => rfl
  | cons p ps ih =>
    simp only [List.cons_append, distinctKinds, Bool.and_eq_true, Bool.not_eq_true', List.any_append,
      Bool.or_eq_false_iff] at h ⊢
    exact ⟨h.1.1, ih h.2⟩

/-- The decoder's loop takes in the legacy prefixes of an admitted list one after the other. -/
theorem decodeFrom_legacy (m : Mode) (d : CodeSize) (seen ps : List Prefix) (rest : List Byte)
    (h : distinctKinds (seen ++ ps) = true) :
    decodeFrom m d seen (ps.map Prefix.byte ++ rest) = decodeFrom m d (seen ++ ps) rest := by
  induction ps generalizing seen with
  | nil => simp
  | cons p ps ih =>
    have h' : distinctKinds ((seen ++ [p]) ++ ps) = true := by simpa using h
    have hp : seen.any p.sameKind = false := by
      have := distinctKinds_of_append h'
      rw [distinctKinds_append_singleton, Bool.and_eq_true_iff] at this
      exact Bool.not_eq_true' _ ▸ this.2
    simp only [List.map_cons, List.cons_append, decodeFrom, legacyPrefix?_byte, hp]
    rw [if_neg (by simp), ih _ h']
    simp

/-- The operand size that an opcode byte selects has that byte for its opcode. -/
theorem opcode_of_opSizeOf {m : Mode} {d : CodeSize} {p : Prefixes} {b : Byte} {n : OpSize}
    (h : opSizeOf m d p b = some n) : n.opcode = b := by
  unfold opSizeOf at h
  split at h
  · rename_i h1; cases h; exact h1.symm
  · split at h
    · rename_i h1
      subst h1
      rw [Option.some.injEq] at h
      subst h
      unfold opSizeOfAF CodeSize.opSize CodeSize.other
      cases m <;> cases d <;> dsimp only <;> repeat' split
      all_goals simp_all [OpSize.opcode]
    · cases h

theorem instrOf_fields (n : OpSize) (r : Option Rep) (a : AddrSize) (p : Prefixes) :
    (instrOf n r a p).opSize = n ∧ (instrOf n r a p).rep = r ∧ (instrOf n r a p).addrSize = a
      ∧ (instrOf n r a p).prefixes = p ∧ (instrOf n r a p).noOperandsForm = instrOf n r a p := by
  rcases r with _ | r
  · cases n <;> exact ⟨rfl, rfl, rfl, rfl, rfl⟩
  · cases r <;> cases n <;> exact ⟨rfl, rfl, rfl, rfl, rfl⟩

/-- The no-operands form of an instruction is the one that its sizes, condition and prefixes name. -/
theorem noOperandsForm_eq (i : Instr) : i.noOperandsForm = instrOf i.opSize i.rep i.addrSize i.prefixes := by
  cases i <;> rfl

end Sys2Proof
end

