-- ==== Sys2Proof/Laws/State.lean ====
section
/-! SUPPORT. One lemma per field and update of the state, true by rfl, so that no proof unfolds a record update. -/

namespace Sys2Proof.Machine

/-! ## `State.setStatus` -/

@[simp] theorem State.setStatus_gpr (s : State) (f : StatusFlags) :
    (s.setStatus f).gpr = s.gpr := rfl

@[simp] theorem State.setStatus_pc (s : State) (f : StatusFlags) :
    (s.setStatus f).pc = s.pc := rfl

@[simp] theorem State.setStatus_eflags (s : State) (f : StatusFlags) :
    (s.setStatus f).eflags = writeStatus s.eflags f := rfl

@[simp] theorem State.setStatus_es (s : State) (f : StatusFlags) :
    (s.setStatus f).es = s.es := rfl

@[simp] theorem State.setStatus_mode (s : State) (f : StatusFlags) :
    (s.setStatus f).mode = s.mode := rfl

@[simp] theorem State.setStatus_csD (s : State) (f : StatusFlags) :
    (s.setStatus f).csD = s.csD := rfl

@[simp] theorem State.setStatus_cpl (s : State) (f : StatusFlags) :
    (s.setStatus f).cpl = s.cpl := rfl

@[simp] theorem State.setStatus_cr0Am (s : State) (f : StatusFlags) :
    (s.setStatus f).cr0Am = s.cr0Am := rfl

@[simp] theorem State.setStatus_laBits (s : State) (f : StatusFlags) :
    (s.setStatus f).laBits = s.laBits := rfl

@[simp] theorem State.setStatus_paging (s : State) (f : StatusFlags) :
    (s.setStatus f).paging = s.paging := rfl

@[simp] theorem State.setStatus_esIllegal (s : State) (f : StatusFlags) :
    (s.setStatus f).esIllegal = s.esIllegal := rfl

@[simp] theorem State.setStatus_mem (s : State) (f : StatusFlags) :
    (s.setStatus f).mem = s.mem := rfl

@[simp] theorem State.setStatus_text (s : State) (f : StatusFlags) :
    (s.setStatus f).text = s.text := rfl

@[simp] theorem State.setStatus_endPc (s : State) (f : StatusFlags) :
    (s.setStatus f).endPc = s.endPc := rfl

@[simp] theorem State.setStatus_freeIndex (s : State) (f : StatusFlags) :
    (s.setStatus f).freeIndex = s.freeIndex := rfl

/-! ## `State.setIdx` -/

@[simp] theorem State.setIdx_gpr_rax (s : State) (a : AddrSize) (v : BitVec a.bits) :
    (s.setIdx a v).gpr.rax = s.gpr.rax := rfl

@[simp] theorem State.setIdx_gpr_rcx (s : State) (a : AddrSize) (v : BitVec a.bits) :
    (s.setIdx a v).gpr.rcx = s.gpr.rcx := rfl

@[simp] theorem State.setIdx_gpr_rdi (s : State) (a : AddrSize) (v : BitVec a.bits) :
    (s.setIdx a v).gpr.rdi = writeView s.gpr.rdi a v := rfl

@[simp] theorem State.setIdx_pc (s : State) (a : AddrSize) (v : BitVec a.bits) :
    (s.setIdx a v).pc = s.pc := rfl

@[simp] theorem State.setIdx_eflags (s : State) (a : AddrSize) (v : BitVec a.bits) :
    (s.setIdx a v).eflags = s.eflags := rfl

@[simp] theorem State.setIdx_es (s : State) (a : AddrSize) (v : BitVec a.bits) :
    (s.setIdx a v).es = s.es := rfl

@[simp] theorem State.setIdx_mode (s : State) (a : AddrSize) (v : BitVec a.bits) :
    (s.setIdx a v).mode = s.mode := rfl

@[simp] theorem State.setIdx_csD (s : State) (a : AddrSize) (v : BitVec a.bits) :
    (s.setIdx a v).csD = s.csD := rfl

@[simp] theorem State.setIdx_cpl (s : State) (a : AddrSize) (v : BitVec a.bits) :
    (s.setIdx a v).cpl = s.cpl := rfl

@[simp] theorem State.setIdx_cr0Am (s : State) (a : AddrSize) (v : BitVec a.bits) :
    (s.setIdx a v).cr0Am = s.cr0Am := rfl

@[simp] theorem State.setIdx_laBits (s : State) (a : AddrSize) (v : BitVec a.bits) :
    (s.setIdx a v).laBits = s.laBits := rfl

@[simp] theorem State.setIdx_paging (s : State) (a : AddrSize) (v : BitVec a.bits) :
    (s.setIdx a v).paging = s.paging := rfl

@[simp] theorem State.setIdx_esIllegal (s : State) (a : AddrSize) (v : BitVec a.bits) :
    (s.setIdx a v).esIllegal = s.esIllegal := rfl

@[simp] theorem State.setIdx_mem (s : State) (a : AddrSize) (v : BitVec a.bits) :
    (s.setIdx a v).mem = s.mem := rfl

@[simp] theorem State.setIdx_text (s : State) (a : AddrSize) (v : BitVec a.bits) :
    (s.setIdx a v).text = s.text := rfl

@[simp] theorem State.setIdx_endPc (s : State) (a : AddrSize) (v : BitVec a.bits) :
    (s.setIdx a v).endPc = s.endPc := rfl

@[simp] theorem State.setIdx_freeIndex (s : State) (a : AddrSize) (v : BitVec a.bits) :
    (s.setIdx a v).freeIndex = s.freeIndex := rfl

/-! ## `State.setCnt` -/

@[simp] theorem State.setCnt_gpr_rax (s : State) (a : AddrSize) (v : BitVec a.bits) :
    (s.setCnt a v).gpr.rax = s.gpr.rax := rfl

@[simp] theorem State.setCnt_gpr_rcx (s : State) (a : AddrSize) (v : BitVec a.bits) :
    (s.setCnt a v).gpr.rcx = writeView s.gpr.rcx a v := rfl

@[simp] theorem State.setCnt_gpr_rdi (s : State) (a : AddrSize) (v : BitVec a.bits) :
    (s.setCnt a v).gpr.rdi = s.gpr.rdi := rfl

@[simp] theorem State.setCnt_pc (s : State) (a : AddrSize) (v : BitVec a.bits) :
    (s.setCnt a v).pc = s.pc := rfl

@[simp] theorem State.setCnt_eflags (s : State) (a : AddrSize) (v : BitVec a.bits) :
    (s.setCnt a v).eflags = s.eflags := rfl

@[simp] theorem State.setCnt_es (s : State) (a : AddrSize) (v : BitVec a.bits) :
    (s.setCnt a v).es = s.es := rfl

@[simp] theorem State.setCnt_mode (s : State) (a : AddrSize) (v : BitVec a.bits) :
    (s.setCnt a v).mode = s.mode := rfl

@[simp] theorem State.setCnt_csD (s : State) (a : AddrSize) (v : BitVec a.bits) :
    (s.setCnt a v).csD = s.csD := rfl

@[simp] theorem State.setCnt_cpl (s : State) (a : AddrSize) (v : BitVec a.bits) :
    (s.setCnt a v).cpl = s.cpl := rfl

@[simp] theorem State.setCnt_cr0Am (s : State) (a : AddrSize) (v : BitVec a.bits) :
    (s.setCnt a v).cr0Am = s.cr0Am := rfl

@[simp] theorem State.setCnt_laBits (s : State) (a : AddrSize) (v : BitVec a.bits) :
    (s.setCnt a v).laBits = s.laBits := rfl

@[simp] theorem State.setCnt_paging (s : State) (a : AddrSize) (v : BitVec a.bits) :
    (s.setCnt a v).paging = s.paging := rfl

@[simp] theorem State.setCnt_esIllegal (s : State) (a : AddrSize) (v : BitVec a.bits) :
    (s.setCnt a v).esIllegal = s.esIllegal := rfl

@[simp] theorem State.setCnt_mem (s : State) (a : AddrSize) (v : BitVec a.bits) :
    (s.setCnt a v).mem = s.mem := rfl

@[simp] theorem State.setCnt_text (s : State) (a : AddrSize) (v : BitVec a.bits) :
    (s.setCnt a v).text = s.text := rfl

@[simp] theorem State.setCnt_endPc (s : State) (a : AddrSize) (v : BitVec a.bits) :
    (s.setCnt a v).endPc = s.endPc := rfl

@[simp] theorem State.setCnt_freeIndex (s : State) (a : AddrSize) (v : BitVec a.bits) :
    (s.setCnt a v).freeIndex = s.freeIndex := rfl

/-! ## `State.tick` -/

@[simp] theorem State.tick_gpr (s : State) :
    s.tick.gpr = s.gpr := rfl

@[simp] theorem State.tick_pc (s : State) :
    s.tick.pc = s.pc := rfl

@[simp] theorem State.tick_eflags (s : State) :
    s.tick.eflags = s.eflags := rfl

@[simp] theorem State.tick_es (s : State) :
    s.tick.es = s.es := rfl

@[simp] theorem State.tick_mode (s : State) :
    s.tick.mode = s.mode := rfl

@[simp] theorem State.tick_csD (s : State) :
    s.tick.csD = s.csD := rfl

@[simp] theorem State.tick_cpl (s : State) :
    s.tick.cpl = s.cpl := rfl

@[simp] theorem State.tick_cr0Am (s : State) :
    s.tick.cr0Am = s.cr0Am := rfl

@[simp] theorem State.tick_laBits (s : State) :
    s.tick.laBits = s.laBits := rfl

@[simp] theorem State.tick_paging (s : State) :
    s.tick.paging = s.paging := rfl

@[simp] theorem State.tick_esIllegal (s : State) :
    s.tick.esIllegal = s.esIllegal := rfl

@[simp] theorem State.tick_mem (s : State) :
    s.tick.mem = s.mem := rfl

@[simp] theorem State.tick_text (s : State) :
    s.tick.text = s.text := rfl

@[simp] theorem State.tick_endPc (s : State) :
    s.tick.endPc = s.endPc := rfl

@[simp] theorem State.tick_freeIndex (s : State) :
    s.tick.freeIndex = s.freeIndex + 1 := rfl

/-! ## `State.advance` -/

@[simp] theorem State.advance_gpr (s : State) (len : Nat) :
    (s.advance len).gpr = s.gpr := rfl

@[simp] theorem State.advance_pc (s : State) (len : Nat) :
    (s.advance len).pc = s.nextPc len := rfl

@[simp] theorem State.advance_eflags (s : State) (len : Nat) :
    (s.advance len).eflags = s.eflags := rfl

@[simp] theorem State.advance_es (s : State) (len : Nat) :
    (s.advance len).es = s.es := rfl

@[simp] theorem State.advance_mode (s : State) (len : Nat) :
    (s.advance len).mode = s.mode := rfl

@[simp] theorem State.advance_csD (s : State) (len : Nat) :
    (s.advance len).csD = s.csD := rfl

@[simp] theorem State.advance_cpl (s : State) (len : Nat) :
    (s.advance len).cpl = s.cpl := rfl

@[simp] theorem State.advance_cr0Am (s : State) (len : Nat) :
    (s.advance len).cr0Am = s.cr0Am := rfl

@[simp] theorem State.advance_laBits (s : State) (len : Nat) :
    (s.advance len).laBits = s.laBits := rfl

@[simp] theorem State.advance_paging (s : State) (len : Nat) :
    (s.advance len).paging = s.paging := rfl

@[simp] theorem State.advance_esIllegal (s : State) (len : Nat) :
    (s.advance len).esIllegal = s.esIllegal := rfl

@[simp] theorem State.advance_mem (s : State) (len : Nat) :
    (s.advance len).mem = s.mem := rfl

@[simp] theorem State.advance_text (s : State) (len : Nat) :
    (s.advance len).text = s.text := rfl

@[simp] theorem State.advance_endPc (s : State) (len : Nat) :
    (s.advance len).endPc = s.endPc := rfl

@[simp] theorem State.advance_freeIndex (s : State) (len : Nat) :
    (s.advance len).freeIndex = s.freeIndex + 1 := rfl

/-! ## `State.compared` -/

@[simp] theorem State.compared_gpr_rax (s : State) (n : OpSize) (a : AddrSize) (src : BitVec n.bits) :
    (s.compared n a src).gpr.rax = s.gpr.rax := rfl

@[simp] theorem State.compared_gpr_rcx (s : State) (n : OpSize) (a : AddrSize) (src : BitVec n.bits) :
    (s.compared n a src).gpr.rcx = s.gpr.rcx := rfl

@[simp] theorem State.compared_gpr_rdi (s : State) (n : OpSize) (a : AddrSize) (src : BitVec n.bits) :
    (s.compared n a src).gpr.rdi = writeView s.gpr.rdi a (s.steppedIdx n a) := rfl

@[simp] theorem State.compared_pc (s : State) (n : OpSize) (a : AddrSize) (src : BitVec n.bits) :
    (s.compared n a src).pc = s.pc := rfl

@[simp] theorem State.compared_eflags (s : State) (n : OpSize) (a : AddrSize) (src : BitVec n.bits) :
    (s.compared n a src).eflags = writeStatus s.eflags (subFlags (s.acc n) src) := rfl

@[simp] theorem State.compared_es (s : State) (n : OpSize) (a : AddrSize) (src : BitVec n.bits) :
    (s.compared n a src).es = s.es := rfl

@[simp] theorem State.compared_mode (s : State) (n : OpSize) (a : AddrSize) (src : BitVec n.bits) :
    (s.compared n a src).mode = s.mode := rfl

@[simp] theorem State.compared_csD (s : State) (n : OpSize) (a : AddrSize) (src : BitVec n.bits) :
    (s.compared n a src).csD = s.csD := rfl

@[simp] theorem State.compared_cpl (s : State) (n : OpSize) (a : AddrSize) (src : BitVec n.bits) :
    (s.compared n a src).cpl = s.cpl := rfl

@[simp] theorem State.compared_cr0Am (s : State) (n : OpSize) (a : AddrSize) (src : BitVec n.bits) :
    (s.compared n a src).cr0Am = s.cr0Am := rfl

@[simp] theorem State.compared_laBits (s : State) (n : OpSize) (a : AddrSize) (src : BitVec n.bits) :
    (s.compared n a src).laBits = s.laBits := rfl

@[simp] theorem State.compared_paging (s : State) (n : OpSize) (a : AddrSize) (src : BitVec n.bits) :
    (s.compared n a src).paging = s.paging := rfl

@[simp] theorem State.compared_esIllegal (s : State) (n : OpSize) (a : AddrSize) (src : BitVec n.bits) :
    (s.compared n a src).esIllegal = s.esIllegal := rfl

@[simp] theorem State.compared_mem (s : State) (n : OpSize) (a : AddrSize) (src : BitVec n.bits) :
    (s.compared n a src).mem = s.mem := rfl

@[simp] theorem State.compared_text (s : State) (n : OpSize) (a : AddrSize) (src : BitVec n.bits) :
    (s.compared n a src).text = s.text := rfl

@[simp] theorem State.compared_endPc (s : State) (n : OpSize) (a : AddrSize) (src : BitVec n.bits) :
    (s.compared n a src).endPc = s.endPc := rfl

@[simp] theorem State.compared_freeIndex (s : State) (n : OpSize) (a : AddrSize) (src : BitVec n.bits) :
    (s.compared n a src).freeIndex = s.freeIndex := rfl

/-! ## `State.skipped` -/

@[simp] theorem State.skipped_gpr_rax (s : State) (a : AddrSize) (len : Nat) :
    (s.skipped a len).gpr.rax = s.gpr.rax := rfl

@[simp] theorem State.skipped_gpr_rcx (s : State) (a : AddrSize) (len : Nat) :
    (s.skipped a len).gpr.rcx = s.rcxAfterZeroCount a := rfl

@[simp] theorem State.skipped_gpr_rdi (s : State) (a : AddrSize) (len : Nat) :
    (s.skipped a len).gpr.rdi = s.gpr.rdi := rfl

@[simp] theorem State.skipped_pc (s : State) (a : AddrSize) (len : Nat) :
    (s.skipped a len).pc = State.nextPc { s with gpr := { s.gpr with rcx := s.rcxAfterZeroCount a } } len := rfl

@[simp] theorem State.skipped_eflags (s : State) (a : AddrSize) (len : Nat) :
    (s.skipped a len).eflags = s.eflags := rfl

@[simp] theorem State.skipped_es (s : State) (a : AddrSize) (len : Nat) :
    (s.skipped a len).es = s.es := rfl

@[simp] theorem State.skipped_mode (s : State) (a : AddrSize) (len : Nat) :
    (s.skipped a len).mode = s.mode := rfl

@[simp] theorem State.skipped_csD (s : State) (a : AddrSize) (len : Nat) :
    (s.skipped a len).csD = s.csD := rfl

@[simp] theorem State.skipped_cpl (s : State) (a : AddrSize) (len : Nat) :
    (s.skipped a len).cpl = s.cpl := rfl

@[simp] theorem State.skipped_cr0Am (s : State) (a : AddrSize) (len : Nat) :
    (s.skipped a len).cr0Am = s.cr0Am := rfl

@[simp] theorem State.skipped_laBits (s : State) (a : AddrSize) (len : Nat) :
    (s.skipped a len).laBits = s.laBits := rfl

@[simp] theorem State.skipped_paging (s : State) (a : AddrSize) (len : Nat) :
    (s.skipped a len).paging = s.paging := rfl

@[simp] theorem State.skipped_esIllegal (s : State) (a : AddrSize) (len : Nat) :
    (s.skipped a len).esIllegal = s.esIllegal := rfl

@[simp] theorem State.skipped_mem (s : State) (a : AddrSize) (len : Nat) :
    (s.skipped a len).mem = s.mem := rfl

@[simp] theorem State.skipped_text (s : State) (a : AddrSize) (len : Nat) :
    (s.skipped a len).text = s.text := rfl

@[simp] theorem State.skipped_endPc (s : State) (a : AddrSize) (len : Nat) :
    (s.skipped a len).endPc = s.endPc := rfl

@[simp] theorem State.skipped_freeIndex (s : State) (a : AddrSize) (len : Nat) :
    (s.skipped a len).freeIndex = s.freeIndex + 1 := rfl

/-! ## What is read of the state, after an update -/

@[simp] theorem State.flag_setIdx (s : State) (a : AddrSize) (v : BitVec a.bits) (f : Flag) :
    (s.setIdx a v).flag f = s.flag f := rfl

@[simp] theorem State.flag_setCnt (s : State) (a : AddrSize) (v : BitVec a.bits) (f : Flag) :
    (s.setCnt a v).flag f = s.flag f := rfl

@[simp] theorem State.flag_tick (s : State) (f : Flag) : s.tick.flag f = s.flag f := rfl

@[simp] theorem State.flag_advance (s : State) (len : Nat) (f : Flag) :
    (s.advance len).flag f = s.flag f := rfl

theorem State.reg_setIdx (s : State) (a : AddrSize) (v : BitVec a.bits) {r : Reg} (h : r ≠ .rdi) :
    (s.setIdx a v).reg r = s.reg r := by
  cases r <;> first | rfl | exact absurd rfl h

theorem State.reg_setCnt (s : State) (a : AddrSize) (v : BitVec a.bits) {r : Reg} (h : r ≠ .rcx) :
    (s.setCnt a v).reg r = s.reg r := by
  cases r <;> first | rfl | exact absurd rfl h

theorem State.reg_compared (s : State) (n : OpSize) (a : AddrSize) (src : BitVec n.bits) {r : Reg} (h : r ≠ .rdi) :
    (s.compared n a src).reg r = s.reg r :=
  State.reg_setIdx (s.setStatus _) a _ h

theorem State.reg_skipped (s : State) (a : AddrSize) (len : Nat) {r : Reg} (h : r ≠ .rcx) :
    (s.skipped a len).reg r = s.reg r := by
  cases r <;> first | rfl | exact absurd rfl h

@[simp] theorem State.reg_advance (s : State) (len : Nat) (r : Reg) : (s.advance len).reg r = s.reg r := by
  cases r <;> rfl

@[simp] theorem State.reg_tick (s : State) (r : Reg) : s.tick.reg r = s.reg r := by
  cases r <;> rfl

/-- The instruction-pointer width depends on the mode and the default size alone. -/
theorem State.ipBits_congr {s t : State} (hm : t.mode = s.mode) (hd : t.csD = s.csD) : t.ipBits = s.ipBits := by
  simp only [State.ipBits, hm, hd]

end Sys2Proof.Machine
end

