-- ==== Sys2Proof/Laws/Flags.lean ====
section
/-! SUPPORT. The small laws of the flags register: which bits a write changes. -/

namespace Sys2Proof.Machine

theorem getLsbD_setBit (v : BitVec 32) (j k : Nat) (b : Bool) (hj : j < 32) :
    (setBit v j b).getLsbD k = if k = j then b else v.getLsbD k := by
  by_cases hk : k < 32
  · cases b <;> by_cases h : k = j
    · subst h; simp [setBit, hk]
    · have : ¬ (k - j = 0 ∧ ¬ k < j) := by omega
      simp [setBit, hk, h]; omega
    · subst h; simp [setBit, hk]
    · simp [setBit, hk, h]; omega
  · have : k ≠ j := by omega
    rw [if_neg this, BitVec.getLsbD_of_ge _ _ (by omega), BitVec.getLsbD_of_ge _ _ (by omega)]

@[simp] theorem State.flag_setStatus_df (s : State) (f : StatusFlags) :
    (s.setStatus f).flag .df = s.flag .df := by
  simp only [State.flag, State.setStatus_eflags, writeStatus, getLsbD_setBit, Flag.bit, Nat.reduceLT]; rfl

@[simp] theorem State.flag_setStatus_cf (s : State) (f : StatusFlags) :
    (s.setStatus f).flag .cf = f.cf := by
  simp only [State.flag, State.setStatus_eflags, writeStatus, getLsbD_setBit, Flag.bit, Nat.reduceLT]; rfl

@[simp] theorem State.flag_setStatus_pf (s : State) (f : StatusFlags) :
    (s.setStatus f).flag .pf = f.pf := by
  simp only [State.flag, State.setStatus_eflags, writeStatus, getLsbD_setBit, Flag.bit, Nat.reduceLT]; rfl

@[simp] theorem State.flag_setStatus_af (s : State) (f : StatusFlags) :
    (s.setStatus f).flag .af = f.af := by
  simp only [State.flag, State.setStatus_eflags, writeStatus, getLsbD_setBit, Flag.bit, Nat.reduceLT]; rfl

@[simp] theorem State.flag_setStatus_zf (s : State) (f : StatusFlags) :
    (s.setStatus f).flag .zf = f.zf := by
  simp only [State.flag, State.setStatus_eflags, writeStatus, getLsbD_setBit, Flag.bit, Nat.reduceLT]; rfl

@[simp] theorem State.flag_setStatus_sf (s : State) (f : StatusFlags) :
    (s.setStatus f).flag .sf = f.sf := by
  simp only [State.flag, State.setStatus_eflags, writeStatus, getLsbD_setBit, Flag.bit, Nat.reduceLT]; rfl

@[simp] theorem State.flag_setStatus_of (s : State) (f : StatusFlags) :
    (s.setStatus f).flag .of = f.of := by
  simp only [State.flag, State.setStatus_eflags, writeStatus, getLsbD_setBit, Flag.bit, Nat.reduceLT]; rfl

/-- A status write keeps every bit of EFLAGS that holds no status flag (10_state.md R26). -/
theorem writeStatus_keeps (v : BitVec 32) (f : StatusFlags) {k : Nat} (h : k ∉ [0, 2, 4, 6, 7, 11]) :
    (writeStatus v f).getLsbD k = v.getLsbD k := by
  simp only [List.mem_cons, List.not_mem_nil, or_false, not_or] at h
  simp only [writeStatus, getLsbD_setBit, Flag.bit, Nat.reduceLT, h, if_false]

end Sys2Proof.Machine
end

