-- ==== Sys2Proof/Laws/Ops.lean ====
section
/-! SUPPORT. The laws of the shared operations: sequencing, register views, byte maps, memory and the text. -/

namespace Sys2Proof.Machine

/-! ## Sequencing -/

section
variable {α β : Type} {k : α → Host.Outcome β Fault Refusal}

@[simp] theorem andThen_next (v : α) : andThen (.next v) k = k v := rfl
@[simp] theorem andThen_fault (f : Fault) : andThen (.fault f) k = .fault f := rfl
@[simp] theorem andThen_refused (r : Refusal) : andThen (.refused r) k = .refused r := rfl

theorem andThen_eq_next {o : Host.Outcome α Fault Refusal} {w : β} :
    andThen o k = .next w ↔ ∃ v, o = .next v ∧ k v = .next w := by
  cases o <;> simp

theorem andThen_unit_eq_next {o : Host.Outcome Unit Fault Refusal} {k : Unit → Host.Outcome β Fault Refusal} {w : β} :
    andThen o k = .next w ↔ o = .next () ∧ k () = .next w := by
  cases o <;> simp

theorem andThen_eq_fault {o : Host.Outcome α Fault Refusal} {f : Fault} :
    andThen o k = .fault f ↔ o = .fault f ∨ ∃ v, o = .next v ∧ k v = .fault f := by
  cases o <;> simp

end

/-! ## Register views -/

theorem writeView_a16 (old : BitVec 64) (v : BitVec 16) (k : Nat) :
    (writeView old .a16 v).getLsbD k = if k < 16 then v.getLsbD k else old.getLsbD k := by
  have h : writeView old .a16 v = (old.extractLsb' 16 48 ++ v.setWidth 16 : BitVec (48 + 16)) := rfl
  rw [h, BitVec.getLsbD_append, BitVec.getLsbD_extractLsb', BitVec.setWidth_eq]
  by_cases hk : k < 16
  · simp [hk]
  · by_cases h64 : k < 64
    · simp [hk, show k - 16 < 48 by omega, show 16 + (k - 16) = k by omega]
    · simp [hk, show ¬ k - 16 < 48 by omega, BitVec.getLsbD_of_ge old k (by omega)]

theorem writeView_a32 (old : BitVec 64) (v : BitVec 32) (k : Nat) :
    (writeView old .a32 v).getLsbD k = if k < 32 then v.getLsbD k else false := by
  have h : writeView old .a32 v = v.setWidth 64 := rfl
  rw [h, BitVec.getLsbD_setWidth]
  by_cases hk : k < 32
  · simp [hk, show k < 64 by omega]
  · simp [hk, BitVec.getLsbD_of_ge v k (by omega)]

@[simp] theorem writeView_low (old : BitVec 64) (a : AddrSize) (v : BitVec a.bits) :
    (writeView old a v).setWidth a.bits = v := by
  apply BitVec.eq_of_getLsbD_eq
  intro k hk
  rw [BitVec.getLsbD_setWidth, decide_eq_true hk, Bool.true_and]
  cases a with
  | a16 => exact (writeView_a16 old v k).trans (if_pos hk)
  | a32 => exact (writeView_a32 old v k).trans (if_pos hk)
  | a64 => exact congrArg (BitVec.getLsbD · k) (BitVec.setWidth_eq (n := 64) v)

@[simp] theorem State.idx_setIdx (s : State) (a : AddrSize) (v : BitVec a.bits) : (s.setIdx a v).idx a = v :=
  writeView_low _ a v

@[simp] theorem State.cnt_setCnt (s : State) (a : AddrSize) (v : BitVec a.bits) : (s.setCnt a v).cnt a = v :=
  writeView_low _ a v

/-! ## Byte maps -/

theorem lookupCell_insertCell (cs : List Host.Cell) (a : Nat) (b : Byte) (x : Nat) :
    lookupCell (insertCell cs a b) x = if x = a then some b else lookupCell cs x := by
  induction cs with
  | nil => simp [insertCell, lookupCell, eq_comm]
  | cons c cs ih =>
    simp only [insertCell]
    split
    · simp [lookupCell, eq_comm]
    · split
      · rename_i h; subst h
        by_cases hx : x = c.1 <;> simp [lookupCell, hx, eq_comm]
      · rename_i h1 h2
        simp only [lookupCell, ih]
        by_cases hx : c.1 = x
        · have : x ≠ a := by omega
          simp [hx, this]
        · simp [hx]

theorem lookupCell_eraseCell (cs : List Host.Cell) (a x : Nat) :
    lookupCell (eraseCell cs a) x = if x = a then none else lookupCell cs x := by
  induction cs with
  | nil => simp [eraseCell, lookupCell]
  | cons c cs ih =>
    simp only [eraseCell] at ih ⊢
    by_cases h : c.1 = a
    · by_cases hx : x = a
      · simpa [List.filter_cons, h, hx] using ih
      · have : ¬ a = x := fun e => hx e.symm
        simpa [List.filter_cons, h, hx, lookupCell, this] using ih
    · by_cases hx : x = a
      · have : ¬ c.1 = x := fun e => h (e.trans hx)
        simpa [List.filter_cons, h, hx, lookupCell, this] using ih
      · simp [h, hx, lookupCell, ih]

theorem risingFrom_mono {lo lo' : Nat} {cs : List Host.Cell} (h : risingFrom lo cs = true) (hl : lo' ≤ lo) :
    risingFrom lo' cs = true := by
  cases cs with
  | nil => rfl
  | cons c cs =>
    simp only [risingFrom, Bool.and_eq_true, decide_eq_true_eq] at h ⊢
    exact ⟨by omega, h.2⟩

theorem risingFrom_insertCell {lo : Nat} {cs : List Host.Cell} (a : Nat) (b : Byte)
    (h : risingFrom lo cs = true) (hl : lo ≤ a) : risingFrom lo (insertCell cs a b) = true := by
  induction cs generalizing lo with
  | nil => simp [insertCell, risingFrom, hl]
  | cons c cs ih =>
    simp only [risingFrom, Bool.and_eq_true, decide_eq_true_eq] at h
    simp only [insertCell]
    split
    · simp [risingFrom, hl, h.2]; omega
    · split
      · rename_i h2; subst h2; simp [risingFrom, h.1, h.2]
      · simp [risingFrom, h.1, ih h.2 (by omega)]

theorem risingFrom_filter {lo : Nat} {cs : List Host.Cell} (p : Host.Cell → Bool) (h : risingFrom lo cs = true) :
    risingFrom lo (cs.filter p) = true := by
  induction cs generalizing lo with
  | nil => rfl
  | cons c cs ih =>
    simp only [risingFrom, Bool.and_eq_true, decide_eq_true_eq] at h
    rw [List.filter_cons]
    split
    · simp [risingFrom, h.1, ih h.2]
    · exact risingFrom_mono (ih h.2) (by omega)

theorem rising_insertCell {cs : List Host.Cell} (a : Nat) (b : Byte) (h : rising cs = true) :
    rising (insertCell cs a b) = true :=
  risingFrom_insertCell a b h (Nat.zero_le a)

theorem rising_placeText {t : List Host.Cell} (a : Nat) (bs : List Byte) (h : rising t = true) :
    rising (placeText t a bs) = true := by
  induction bs generalizing t a with
  | nil => exact h
  | cons b bs ih => exact ih (a + 1) (rising_insertCell a b h)

theorem lookupCell_placeText (t : List Host.Cell) (a : Nat) (bs : List Byte) (x : Nat) :
    lookupCell (placeText t a bs) x = if a ≤ x ∧ x < a + bs.length then bs[x - a]? else lookupCell t x := by
  induction bs generalizing t a with
  | nil => simp only [placeText, List.length_nil]; split <;> [omega; rfl]
  | cons b bs ih =>
    simp only [placeText, ih, lookupCell_insertCell, List.length_cons]
    by_cases h1 : x = a
    · subst h1; simp
    · by_cases h2 : a + 1 ≤ x ∧ x < a + 1 + bs.length
      · have h3 : a ≤ x ∧ x < a + (bs.length + 1) := by omega
        have h4 : x - a = (x - (a + 1)) + 1 := by omega
        simp only [h2, h3, h4, and_self, if_true, List.getElem?_cons_succ]
      · have h3 : ¬ (a ≤ x ∧ x < a + (bs.length + 1)) := by omega
        simp only [h1, h2, h3, if_false]

/-! ## Data memory -/

theorem Memory.readByte_writeByte (m : List Host.Cell) (a : Nat) (b : Byte) (x : Nat) :
    Memory.readByte (Memory.writeByte m a b) x = if x = a then b else Memory.readByte m x := by
  unfold Memory.readByte Memory.writeByte
  by_cases hb : b = Config.unlistedByte <;> by_cases hx : x = a <;>
    simp [hb, hx, lookupCell_eraseCell, lookupCell_insertCell]

theorem all_insertCell {cs : List Host.Cell} {p : Host.Cell → Bool} (a : Nat) (b : Byte) (h : cs.all p = true)
    (hb : p (a, b) = true) : (insertCell cs a b).all p = true := by
  induction cs with
  | nil => simpa [insertCell] using hb
  | cons c cs ih =>
    simp only [List.all_cons, Bool.and_eq_true] at h
    simp only [insertCell]
    split
    · simp only [List.all_cons, hb, h.1, h.2, Bool.and_true]
    · split
      · simp only [List.all_cons, hb, h.2, Bool.and_true]
      · simp only [List.all_cons, h.1, ih h.2, Bool.and_true]

/-- Every write of a byte keeps the canonical form of memory. -/
theorem Memory.wf_writeByte {m : List Host.Cell} (a : Nat) (b : Byte) (h : Memory.wf m = true) :
    Memory.wf (Memory.writeByte m a b) = true := by
  simp only [Memory.wf, Bool.and_eq_true] at h ⊢
  unfold Memory.writeByte
  split
  · refine ⟨risingFrom_filter _ h.1, ?_⟩
    rw [List.all_eq_true] at h ⊢
    exact fun c hc => h.2 c (List.mem_of_mem_filter hc)
  · rename_i hb
    exact ⟨risingFrom_insertCell a b h.1 (Nat.zero_le a), all_insertCell a b h.2 (by simpa using hb)⟩

theorem Memory.wf_writeBytes {m : List Host.Cell} (a : Nat) (bs : List Byte) (h : Memory.wf m = true) :
    Memory.wf (Memory.writeBytes m a bs) = true := by
  induction bs generalizing m a with
  | nil => exact h
  | cons b bs ih => exact ih (a + 1) (Memory.wf_writeByte a b h)

/-- Every write of a datum keeps the canonical form of memory. -/
theorem Memory.wf_write {m : List Host.Cell} (a n : Nat) (v : BitVec (8 * n)) (h : Memory.wf m = true) :
    Memory.wf (Memory.write m a n v) = true :=
  Memory.wf_writeBytes a _ h

theorem Memory.reset_wf : Memory.wf State.reset.mem = true := rfl

theorem leValue_lt (bs : List Byte) : leValue bs < 2 ^ (8 * bs.length) := by
  induction bs with
  | nil => simp [leValue]
  | cons b bs ih =>
    have hb := b.isLt
    have : 2 ^ (8 * (bs.length + 1)) = 256 * 2 ^ (8 * bs.length) := by
      rw [Nat.mul_add, Nat.pow_add]; norm_num [Nat.mul_comm]
    simp only [leValue, List.length_cons, this]
    omega

theorem leValue_byte (bs : List Byte) (k : Nat) (h : k < bs.length) :
    leValue bs / 2 ^ (8 * k) % 256 = bs[k].toNat := by
  induction bs generalizing k with
  | nil => simp at h
  | cons b bs ih =>
    have hb := b.isLt
    cases k with
    | zero => simp only [leValue, Nat.mul_zero, Nat.pow_zero, Nat.div_one, List.getElem_cons_zero]; omega
    | succ k =>
      have hk : k < bs.length := by simpa using h
      have : 2 ^ (8 * (k + 1)) = 256 * 2 ^ (8 * k) := by
        rw [Nat.mul_add, Nat.pow_add]; norm_num [Nat.mul_comm]
      rw [List.getElem_cons_succ, ← ih k hk, leValue, this, ← Nat.div_div_eq_div_mul]
      congr 2
      omega

/-- Bits `8k+7` to `8k` of the little-endian value of bytes are byte `k` (20_memory.md R51). -/
theorem extract_leValue (bs : List Byte) (w k : Nat) (hw : w = 8 * bs.length) (h : k < bs.length) :
    (BitVec.ofNat w (leValue bs)).extractLsb' (8 * k) 8 = bs[k] := by
  subst hw
  apply BitVec.eq_of_toNat_eq
  rw [BitVec.extractLsb'_toNat, BitVec.toNat_ofNat, Nat.mod_eq_of_lt (leValue_lt bs), Nat.shiftRight_eq_div_pow]
  exact leValue_byte bs k h

/-! ## The text -/

theorem State.nextPc_of_lt (s : State) {len : Nat} (h : s.ip + len < 2 ^ s.ipBits) :
    s.nextPc len = s.pc + BitVec.ofNat 64 len :=
  if_pos h

theorem State.ipBits_le (s : State) : s.ipBits ≤ 64 := by
  unfold State.ipBits
  split <;> omega

theorem State.nextPc_lt (s : State) (len : Nat) (hpc : s.pc.toNat < 2 ^ s.ipBits) :
    (s.nextPc len).toNat < 2 ^ s.ipBits := by
  have hle : 2 ^ s.ipBits ≤ 2 ^ 64 := Nat.pow_le_pow_right (by omega) s.ipBits_le
  unfold State.nextPc
  split
  · rename_i h
    have hip : s.ip = s.pc.toNat := Nat.mod_eq_of_lt hpc
    rw [BitVec.toNat_add, BitVec.toNat_ofNat]
    exact lt_of_le_of_lt (Nat.mod_le _ _) (lt_of_le_of_lt (Nat.add_le_add_left (Nat.mod_le _ _) _) (hip ▸ h))
  · rw [BitVec.toNat_setWidth]
    exact lt_of_le_of_lt (Nat.mod_le _ _) (BitVec.isLt _)

theorem State.textFrom_of_holds (s : State) (a k : Nat) (bs : List Byte) (hk : bs.length ≤ k)
    (ht : a + bs.length ≤ 2 ^ s.ipBits) (hb : ∀ j (h : j < bs.length), lookupCell s.text (a + j) = some bs[j]) :
    ∃ rest, s.textFrom a k = bs ++ rest := by
  induction bs generalizing a k with
  | nil => exact ⟨_, rfl⟩
  | cons b bs ih =>
    cases k with
    | zero => simp at hk
    | succ k =>
      simp only [List.length_cons] at hk ht
      have h0 := hb 0 (by simp)
      simp only [Nat.add_zero, List.getElem_cons_zero] at h0
      obtain ⟨rest, hr⟩ := ih (a + 1) k (by omega) (by omega) (fun j h => by
        have := hb (j + 1) (by simpa using h)
        simpa [Nat.add_assoc, Nat.add_comm 1 j] using this)
      exact ⟨rest, by simp [State.textFrom, h0, hr, show a < 2 ^ s.ipBits by omega]⟩

/-! ## Paging -/

theorem lookupPage_append (front back : List PageEntry) (lin : BitVec 64) (cpl : Fin 4)
    (h : ∀ e ∈ front, e.lin ≠ lin ∨ e.cpl ≠ cpl) : lookupPage (front ++ back) lin cpl = lookupPage back lin cpl := by
  induction front with
  | nil => rfl
  | cons e es ih =>
    have he : ¬ (e.lin = lin ∧ e.cpl = cpl) := by
      rw [not_and_or]; exact h e (by simp)
    rw [List.cons_append, lookupPage, if_neg he, ih fun x hx => h x (by simp [hx])]

theorem lookupPage_eq_none (es : List PageEntry) (lin : BitVec 64) (cpl : Fin 4)
    (h : ∀ e ∈ es, e.lin ≠ lin ∨ e.cpl ≠ cpl) : lookupPage es lin cpl = none := by
  rw [← List.append_nil es, lookupPage_append es [] lin cpl h, lookupPage]

theorem State.translate_of_real {s : State} (h : s.mode = .real) (lin : BitVec 64) :
    s.translate lin = .ok lin.toNat := by
  simp only [State.translate, h]

theorem State.translate_of_not_real {s : State} (h : s.mode ≠ .real) (lin : BitVec 64) :
    s.translate lin = (lookupPage s.paging lin s.cpl).getD (.ok lin.toNat) := by
  unfold State.translate
  split
  · contradiction
  all_goals rfl

end Sys2Proof.Machine
end

