-- ==== Sys2Proof/Laws/Operands.lean ====
section
/-! SUPPORT. What the checked read of the operand can do: one lemma per check, and the read as a whole. -/

namespace Sys2Proof

theorem OpSize.bytes_pos (n : OpSize) : 1 ≤ n.bytes := by
  cases n <;> decide

theorem OpSize.bits_eq (n : OpSize) : n.bits = 8 * n.bytes := by
  cases n <;> rfl

end Sys2Proof

namespace Sys2Proof.Machine

/-! ## The limit -/

/-- Every byte of an operand is at a valid offset when its first and last are. -/
theorem Segment.admits_all (es : Segment) (off : Nat) (n : OpSize) :
    (∀ k < n.bytes, es.admits (off + k)) ↔
      if es.expandDown = false then off + n.bytes - 1 ≤ es.limit.toNat
      else es.limit.toNat < off ∧ off + n.bytes - 1 ≤ es.top.toNat := by
  have hn := n.bytes_pos
  unfold Segment.admits
  split
  · constructor
    · intro h; have := h (n.bytes - 1) (by omega); omega
    · intro h k hk; omega
  · constructor
    · intro h; have h0 := h 0 (by omega); have h1 := h (n.bytes - 1) (by omega); omega
    · intro h k hk; omega

theorem limitVerdict_eq_inside (es : Segment) (off : Nat) (n : OpSize) (a : AddrSize) :
    limitVerdict es off n.bytes a = .inside ↔
      off + n.bytes ≤ 2 ^ a.bits ∧ ∀ k < n.bytes, es.admits (off + k) := by
  have hn := n.bytes_pos
  rw [Segment.admits_all]
  simp only [limitVerdict]
  by_cases h : off + n.bytes - 1 < 2 ^ a.bits
  · have h' : off + n.bytes ≤ 2 ^ a.bits := by omega
    simp only [h, h', if_true, true_and]
    split <;> split <;> simp_all
  · have h' : ¬ off + n.bytes ≤ 2 ^ a.bits := by omega
    simp only [h, h', if_false, false_and, iff_false]
    repeat' split
    all_goals simp

/-! ## The checks, one by one -/

theorem checkNull_eq_next (s : State) :
    checkNull s = .next () ↔ (s.mode = .prot ∨ s.mode = .compat → s.es.null = false) := by
  unfold checkNull takeException checksSelector
  cases s.mode <;> cases s.es.null <;> simp

theorem checkIllegal_eq_next (off : Nat) (n : OpSize) (s : State) :
    checkIllegal off n s = .next () ↔
      (s.mode = .prot ∨ s.mode = .compat → (off, n.bytes) ∉ s.esIllegal) := by
  unfold checkIllegal takeException checksSelector
  by_cases h : (off, n.bytes) ∈ s.esIllegal <;> cases s.mode <;> simp [h]

theorem checkCanonical_eq_next (off : Nat) (n : OpSize) (a : AddrSize) (s : State) :
    checkCanonical off n a s = .next () ↔
      off + n.bytes ≤ 2 ^ a.bits ∧ ∀ k < n.bytes, canonical s.laBits (s.lin off k) = true := by
  have hn := n.bytes_pos
  unfold checkCanonical takeException
  by_cases h0 : canonical s.laBits (s.lin off 0) = false
  · rw [if_pos h0]
    simp only [reduceCtorEq, false_iff, not_and, not_forall]
    exact fun _ => ⟨0, by omega, by simp [h0]⟩
  · rw [if_neg h0]
    split
    · rename_i h
      simp only [reduceCtorEq, false_iff, not_and, not_forall]
      rcases h with h | h
      · intro h'; omega
      · simp only [List.any_eq_true, List.mem_range, Bool.not_eq_true'] at h
        obtain ⟨k, hk, hc⟩ := h
        exact fun _ => ⟨k, hk, by simp [hc]⟩
    · rename_i h
      simp only [not_or, not_le, List.any_eq_true, List.mem_range, Bool.not_eq_true', not_exists, not_and,
        Bool.not_eq_false] at h
      simp only [true_iff]
      exact ⟨by omega, h.2⟩

theorem checkRange_eq_next (off : Nat) (n : OpSize) (a : AddrSize) (s : State) :
    checkRange off n a s = .next () ↔ s.LimitOk off n a ∧ s.CanonicalOk off n a := by
  by_cases hm : s.mode = .long64
  · simp only [checkRange, hm, checkCanonical_eq_next, State.LimitOk, State.CanonicalOk, ne_eq, not_true_eq_false,
      false_implies, true_and, forall_const]
  · have : checkRange off n a s = checkLimit off n a s := by
      unfold checkRange; cases h : s.mode <;> simp_all
    rw [this]
    simp only [State.LimitOk, State.CanonicalOk, hm, ne_eq, not_false_eq_true, forall_const, false_implies, and_true,
      ← limitVerdict_eq_inside, checkLimit, takeException]
    cases limitVerdict s.es off n.bytes a <;> simp

/-! ## Alignment and paging -/

theorem State.acApplies_iff (s : State) (off : Nat) (n : OpSize) :
    s.acApplies off n = true ↔ s.AcRaised off n := by
  have hmod : (decide (1 < n.bytes) && (s.lin off 0).toNat % n.bytes != 0) = true
      ↔ (s.lin off 0).toNat % n.bytes ≠ 0 := by
    cases n <;> simp [OpSize.bytes, Nat.mod_one]
  unfold State.acApplies State.unaligned State.AcRaised State.acPrivilege
  rw [Bool.and_eq_true, Bool.and_eq_true, hmod]
  cases s.mode <;> simp <;> tauto

theorem mem_pageFaults (s : State) (off : Nat) (n : OpSize) (c : Nat) (l : BitVec 64) :
    (c, l) ∈ pageFaults (s.translations off n) ↔
      ∃ k < n.bytes, s.lin off k = l ∧ s.translate (s.lin off k) = .pageFault c := by
  simp only [pageFaults, State.translations, List.mem_filterMap, List.mem_map, List.mem_range]
  constructor
  · rintro ⟨t, ⟨k, hk, rfl⟩, h⟩
    refine ⟨k, hk, ?_⟩
    dsimp only at h
    split at h <;> simp_all
  · rintro ⟨k, hk, rfl, h⟩
    exact ⟨_, ⟨k, hk, rfl⟩, by simp [h]⟩

theorem Translation.succeeds_eq_false (t : Translation) : t.succeeds = false ↔ ∃ c, t = .pageFault c := by
  cases t <;> simp [Translation.succeeds]

theorem pageFaults_eq_nil (s : State) (off : Nat) (n : OpSize) :
    pageFaults (s.translations off n) = [] ↔ s.PagesOk off n := by
  rw [List.eq_nil_iff_forall_not_mem]
  constructor
  · intro h k hk
    by_contra hc
    rw [Bool.not_eq_true, Translation.succeeds_eq_false] at hc
    obtain ⟨c, hc⟩ := hc
    exact h (c, s.lin off k) ((mem_pageFaults s off n c _).2 ⟨k, hk, rfl, hc⟩)
  · rintro h ⟨c, l⟩ hm
    obtain ⟨k, hk, -, ht⟩ := (mem_pageFaults s off n c l).1 hm
    have := h k hk
    simp [ht, Translation.succeeds] at this

/-- The reported page fault is one of the failing bytes'. -/
theorem reportedFault_mem (f : Nat × BitVec 64) (fs : List (Nat × BitVec 64)) (k : Nat) :
    reportedFault f fs k ∈ f :: fs := by
  cases fs with
  | nil => simp [reportedFault]
  | cons g gs =>
    have hlt : Config.pfByte k % ((g :: gs).length + 1) < (f :: g :: gs).length :=
      Nat.mod_lt _ (Nat.succ_pos _)
    simp only [reportedFault]
    rw [List.getD_eq_getElem?_getD, List.getElem?_eq_getElem hlt]
    exact List.getElem_mem hlt

theorem checkAlignAndPages_eq_next (off : Nat) (n : OpSize) (s : State) :
    checkAlignAndPages off n s = .next () ↔ ¬ s.AcRaised off n ∧ s.PagesOk off n := by
  rw [← State.acApplies_iff, ← pageFaults_eq_nil]
  unfold checkAlignAndPages takeException
  cases pageFaults (s.translations off n) with
  | nil => by_cases h : s.acApplies off n = true <;> simp [h]
  | cons f fs =>
    dsimp only
    split <;> simp

/-! ## The read -/

/-- The checked read answers a value exactly when the operand is readable, and then the bytes of the operand
(20_memory.md R58). -/
theorem readEs_eq_next (off : Nat) (n : OpSize) (a : AddrSize) (s : State) (v : BitVec n.bits) :
    readEs off n a s = .next v ↔ s.Readable off n a ∧ v = s.operand off n := by
  simp only [readEs, andThen_unit_eq_next, checkNull_eq_next, checkRange_eq_next, checkIllegal_eq_next,
    checkAlignAndPages_eq_next, State.Readable, State.SegmentOk, State.SelectorOk, Host.Outcome.next.injEq,
    eq_comm (a := s.operand off n)]
  tauto

theorem readEs_of_readable {off : Nat} {n : OpSize} {a : AddrSize} {s : State} (h : s.Readable off n a) :
    readEs off n a s = .next (s.operand off n) :=
  (readEs_eq_next off n a s _).2 ⟨h, rfl⟩

theorem State.gpCode_eq (s : State) : s.gpCode = if s.mode = .real then none else some 0 := by
  unfold State.gpCode
  cases s.mode <;> rfl

theorem checkRange_of_not_long {s : State} {off : Nat} {n : OpSize} {a : AddrSize} (h : s.mode ≠ .long64) :
    checkRange off n a s = checkLimit off n a s := by
  unfold checkRange
  cases hm : s.mode <;> simp_all

/-- When the segment checks pass, alignment and paging decide. -/
theorem readEs_of_segmentOk {s : State} {off : Nat} {n : OpSize} {a : AddrSize} (h : s.SegmentOk off n a) :
    readEs off n a s = andThen (checkAlignAndPages off n s) fun _ => .next (s.operand off n) := by
  have h1 := (checkNull_eq_next s).2 fun hm => (h.1 hm).1
  have h2 := (checkRange_eq_next off n a s).2 h.2
  have h3 := (checkIllegal_eq_next off n s).2 fun hm => (h.1 hm).2
  simp [readEs, h1, h2, h3]

/-- Everything the read can raise: #GP with the code of the mode, #AC when it applies, or the page fault of a failing
byte (20_memory.md R58). -/
theorem readEs_eq_fault {off : Nat} {n : OpSize} {a : AddrSize} {s : State} {f : Fault}
    (h : readEs off n a s = .fault f) :
    f = .gp s.gpCode s.pc ∨ (s.AcRaised off n ∧ f = .ac 0 s.pc)
    ∨ ∃ k c, k < n.bytes ∧ s.translate (s.lin off k) = .pageFault c ∧ f = .pf c (s.lin off k) s.pc := by
  simp only [readEs, andThen_eq_fault, reduceCtorEq, and_false, exists_false, or_false] at h
  rcases h with h | ⟨_, _, h | ⟨_, _, h | ⟨_, _, h⟩⟩⟩
  · left
    unfold checkNull takeException at h
    split at h <;> simp_all
  · left
    by_cases hm : s.mode = .long64
    · simp only [checkRange, hm, checkCanonical, takeException] at h
      split at h
      · simp_all
      · split at h <;> simp_all
    · rw [checkRange_of_not_long hm] at h
      simp only [checkLimit, takeException] at h
      split at h <;> simp_all
  · left
    unfold checkIllegal takeException at h
    split at h <;> simp_all
  · right
    unfold checkAlignAndPages takeException at h
    split at h
    · split at h
      · exact .inl ⟨(s.acApplies_iff _ _).1 ‹_›, (Host.Outcome.fault.inj h).symm⟩
      · cases h
    · rename_i g gs hg
      split at h
      · rename_i hac
        rw [Bool.and_eq_true] at hac
        exact .inl ⟨(s.acApplies_iff _ _).1 hac.1, (Host.Outcome.fault.inj h).symm⟩
      · have hm := reportedFault_mem g gs s.freeIndex
        rw [← hg] at hm
        obtain ⟨k, hk, hl, ht⟩ := (mem_pageFaults s off n _ _).1 hm
        exact .inr ⟨k, _, hk, ht, by rw [hl]; exact (Host.Outcome.fault.inj h).symm⟩

/-! ## The bytes of the operand -/

theorem physicals_of_pagesOk {s : State} {off : Nat} {n : OpSize} (h : s.PagesOk off n) :
    ∃ ps : List Nat, physicals (s.translations off n) = ps ∧ ps.length = n.bytes ∧
      ∀ k (hk : k < ps.length), s.translate (s.lin off k) = .ok ps[k] := by
  have key : ∀ m, (∀ k < m, (s.translate (s.lin off k)).succeeds = true) →
      ∃ ps : List Nat, physicals ((List.range m).map fun k => (s.lin off k, s.translate (s.lin off k))) = ps
        ∧ ps.length = m ∧ ∀ k (hk : k < ps.length), s.translate (s.lin off k) = .ok ps[k] := by
    intro m
    induction m with
    | zero => exact fun _ => ⟨[], rfl, rfl, fun k hk => absurd hk (by simp)⟩
    | succ m ih =>
      intro hm
      obtain ⟨ps, h1, h2, h3⟩ := ih fun k hk => hm k (by omega)
      cases ht : s.translate (s.lin off m) with
      | pageFault c => have := hm m (by omega); simp [ht, Translation.succeeds] at this
      | ok x =>
        refine ⟨ps ++ [x], ?_, by simp [h2], ?_⟩
        · rw [List.range_succ, List.map_append, physicals, List.filterMap_append, ← physicals, h1]
          simp [ht]
        · intro k hk
          by_cases hkm : k < ps.length
          · rw [List.getElem_append_left hkm]; exact h3 k hkm
          · have hkeq : k = m := by simp at hk; omega
            subst hkeq
            rw [List.getElem_append_right (by omega)]
            simp [ht, h2]
  exact key n.bytes h

end Sys2Proof.Machine
end

