-- ==== Sys2Proof/Laws/PerInstr.lean ====
section
/-! SUPPORT. Claims made for every instruction as syntax, one lemma per constructor. -/

namespace Sys2Proof.Laws.EncodingShape

/-- The bytes of an instruction are its prefixes and then one opcode byte, AE for the byte forms and AF for the others;
their number is the length `L`; the no-operands form has the same bytes (30_encoding.md R80, R81, R91, R97). -/
def Statement (i : Instr) : Prop :=
  encode i = i.prefixes.encode ++ [if i.opSize = .b8 then 0xAE#8 else 0xAF#8]
  ∧ (encode i).length = i.prefixes.length
  ∧ encode i.noOperandsForm = encode i

theorem length_encode (i : Instr) : (encode i).length = i.prefixes.length := by
  unfold encode Prefixes.encode Prefixes.length
  cases i.prefixes.rex <;> simp

theorem scasM8 (a : AddrSize) (p : Prefixes) : Statement (.scasM8 a p) :=
  ⟨rfl, length_encode _, rfl⟩

theorem scasM16 (a : AddrSize) (p : Prefixes) : Statement (.scasM16 a p) :=
  ⟨rfl, length_encode _, rfl⟩

theorem scasM32 (a : AddrSize) (p : Prefixes) : Statement (.scasM32 a p) :=
  ⟨rfl, length_encode _, rfl⟩

theorem scasM64 (a : AddrSize) (p : Prefixes) : Statement (.scasM64 a p) :=
  ⟨rfl, length_encode _, rfl⟩

theorem scasb (a : AddrSize) (p : Prefixes) : Statement (.scasb a p) :=
  ⟨rfl, length_encode _, rfl⟩

theorem scasw (a : AddrSize) (p : Prefixes) : Statement (.scasw a p) :=
  ⟨rfl, length_encode _, rfl⟩

theorem scasd (a : AddrSize) (p : Prefixes) : Statement (.scasd a p) :=
  ⟨rfl, length_encode _, rfl⟩

theorem scasq (a : AddrSize) (p : Prefixes) : Statement (.scasq a p) :=
  ⟨rfl, length_encode _, rfl⟩

theorem repeScasb (a : AddrSize) (p : Prefixes) : Statement (.repeScasb a p) :=
  ⟨rfl, length_encode _, rfl⟩

theorem repneScasb (a : AddrSize) (p : Prefixes) : Statement (.repneScasb a p) :=
  ⟨rfl, length_encode _, rfl⟩

theorem repeScasw (a : AddrSize) (p : Prefixes) : Statement (.repeScasw a p) :=
  ⟨rfl, length_encode _, rfl⟩

theorem repneScasw (a : AddrSize) (p : Prefixes) : Statement (.repneScasw a p) :=
  ⟨rfl, length_encode _, rfl⟩

theorem repeScasd (a : AddrSize) (p : Prefixes) : Statement (.repeScasd a p) :=
  ⟨rfl, length_encode _, rfl⟩

theorem repneScasd (a : AddrSize) (p : Prefixes) : Statement (.repneScasd a p) :=
  ⟨rfl, length_encode _, rfl⟩

theorem repeScasq (a : AddrSize) (p : Prefixes) : Statement (.repeScasq a p) :=
  ⟨rfl, length_encode _, rfl⟩

theorem repneScasq (a : AddrSize) (p : Prefixes) : Statement (.repneScasq a p) :=
  ⟨rfl, length_encode _, rfl⟩

end Sys2Proof.Laws.EncodingShape
end

