-- ==== Sys2Proof/Laws/Scas.lean ====
section
/-! SUPPORT. What a scan and an iteration of a repeated scan can do: one lemma per shared operation, and the effect of
each piece on flags, index and count. -/

namespace Sys2Proof.Machine

/-! ## Dispatch -/

/-- Every meaning is the shared operation at the sizes and the repeat condition of its opcode-table row. -/
theorem exec_eq (i : Instr) (s : State) :
    exec i s = match i.rep with
      | none => scas i.opSize i.addrSize i.prefixes s
      | some r => repScas i.opSize r i.addrSize i.prefixes s := by
  cases i <;> rfl

theorem exec_plain {i : Instr} (h : i.rep = none) (s : State) :
    exec i s = scas i.opSize i.addrSize i.prefixes s := by
  rw [exec_eq, h]

theorem exec_repeated {i : Instr} {r : Rep} (h : i.rep = some r) (s : State) :
    exec i s = repScas i.opSize r i.addrSize i.prefixes s := by
  rw [exec_eq, h]

theorem unlessLocked_of_lock {p : Prefixes} {s : State} {o : Host.Outcome State Fault Refusal}
    (h : p.hasLock = true) : unlessLocked p s o = .fault (.ud s.pc) := by
  simp [unlessLocked, h, takeException]

theorem unlessLocked_of_not_lock {p : Prefixes} {s : State} {o : Host.Outcome State Fault Refusal}
    (h : p.hasLock = false) : unlessLocked p s o = o := by
  simp [unlessLocked, h]

/-! ## What each shared operation answers -/

theorem scasExec_eq_next (n : OpSize) (a : AddrSize) (s t : State) :
    scasExec n a s = .next t ↔
      s.Readable (s.idx a).toNat n a ∧ t = s.compared n a (s.operand (s.idx a).toNat n) := by
  unfold scasExec
  rw [andThen_eq_next]
  constructor
  · rintro ⟨v, hv, ht⟩
    obtain ⟨hr, rfl⟩ := (readEs_eq_next _ n a s v).1 hv
    exact ⟨hr, (Host.Outcome.next.inj ht).symm⟩
  · rintro ⟨hr, rfl⟩
    exact ⟨_, readEs_of_readable hr, rfl⟩

/-- A scan without a repeat prefix answers a next state exactly when it has no LOCK prefix and its operand is readable,
and then this one (40_scas.md R110). -/
theorem scas_eq_next (n : OpSize) (a : AddrSize) (p : Prefixes) (s t : State) :
    scas n a p s = .next t ↔
      p.hasLock = false ∧ s.Readable (s.idx a).toNat n a ∧
      t = (s.compared n a (s.operand (s.idx a).toNat n)).advance p.length := by
  unfold scas
  cases hl : p.hasLock with
  | true => simp [unlessLocked_of_lock hl]
  | false =>
    simp only [unlessLocked_of_not_lock hl, andThen_eq_next, scasExec_eq_next, Host.Outcome.next.injEq, true_and]
    constructor
    · rintro ⟨u, ⟨hr, rfl⟩, rfl⟩; exact ⟨hr, rfl⟩
    · rintro ⟨hr, rfl⟩; exact ⟨_, ⟨hr, rfl⟩, rfl⟩

/-- A step of a repeated scan answers a next state exactly when it has no LOCK prefix and its count is zero or its
operand is readable, and then this one (41_rep_scas.md R132, R133). -/
theorem repScas_eq_next (n : OpSize) (r : Rep) (a : AddrSize) (p : Prefixes) (s t : State) :
    repScas n r a p s = .next t ↔
      p.hasLock = false ∧
      ((s.cnt a = 0 ∧ t = s.skipped a p.length)
      ∨ (s.cnt a ≠ 0 ∧ s.Readable (s.idx a).toNat n a ∧
          t = (s.compared n a (s.operand (s.idx a).toNat n)).iterated a r p.length)) := by
  unfold repScas
  cases hl : p.hasLock with
  | true => simp [unlessLocked_of_lock hl]
  | false =>
    rw [unlessLocked_of_not_lock hl]
    by_cases hc : s.cnt a = 0
    · simp [hc, eq_comm]
    · simp only [hc, if_false, andThen_eq_next, scasExec_eq_next, Host.Outcome.next.injEq, true_and, false_and,
        false_or, ne_eq, not_false_eq_true]
      constructor
      · rintro ⟨u, ⟨hr, rfl⟩, rfl⟩; exact ⟨hr, rfl⟩
      · rintro ⟨hr, rfl⟩; exact ⟨_, ⟨hr, rfl⟩, rfl⟩

/-- An instruction that reads its operand raises what the read raises. -/
theorem exec_fault_of_read {i : Instr} {s : State} {f : Fault} (h : Reads i s)
    (hr : readEs (s.idx i.addrSize).toNat i.opSize i.addrSize s = .fault f) : exec i s = .fault f := by
  have hx : scasExec i.opSize i.addrSize s = .fault f := by simp [scasExec, hr]
  rw [exec_eq]
  cases hrep : i.rep with
  | none => simp only [scas, unlessLocked_of_not_lock h.1, hx, andThen_fault]
  | some r =>
    have hc : s.cnt i.addrSize ≠ 0 := h.2.resolve_left (by simp [hrep])
    simp only [repScas, unlessLocked_of_not_lock h.1, hx, if_neg hc, andThen_fault]

/-- An instruction that reads its operand is refused where the read is. -/
theorem exec_refused_of_read {i : Instr} {s : State} {q : Refusal} (h : Reads i s)
    (hr : readEs (s.idx i.addrSize).toNat i.opSize i.addrSize s = .refused q) : exec i s = .refused q := by
  have hx : scasExec i.opSize i.addrSize s = .refused q := by simp [scasExec, hr]
  rw [exec_eq]
  cases hrep : i.rep with
  | none => simp only [scas, unlessLocked_of_not_lock h.1, hx, andThen_refused]
  | some r =>
    have hc : s.cnt i.addrSize ≠ 0 := h.2.resolve_left (by simp [hrep])
    simp only [repScas, unlessLocked_of_not_lock h.1, hx, if_neg hc, andThen_refused]

/-- An instruction raises #UD or what its read raises, and nothing else. -/
theorem exec_eq_fault {i : Instr} {s : State} {f : Fault} (h : exec i s = .fault f) :
    f = .ud s.pc ∨ readEs (s.idx i.addrSize).toNat i.opSize i.addrSize s = .fault f := by
  have key : ∀ k : State → Host.Outcome State Fault Refusal, (∀ t, k t ≠ .fault f) →
      andThen (scasExec i.opSize i.addrSize s) k = .fault f →
      readEs (s.idx i.addrSize).toNat i.opSize i.addrSize s = .fault f := by
    intro k hk h
    rw [andThen_eq_fault, scasExec, andThen_eq_fault] at h
    rcases h with (h | ⟨_, _, h⟩) | ⟨t, _, h⟩
    · exact h
    · cases h
    · exact absurd h (hk t)
  rw [exec_eq] at h
  split at h
  · simp only [scas, unlessLocked, takeException] at h
    split at h
    · exact .inl (Host.Outcome.fault.inj h).symm
    · exact .inr (key _ (by simp) h)
  · simp only [repScas, unlessLocked, takeException] at h
    split at h
    · exact .inl (Host.Outcome.fault.inj h).symm
    · split at h
      · cases h
      · exact .inr (key _ (by simp) h)

/-- A step answers a next state exactly by executing the instruction it has decoded. -/
theorem step_eq_next {s t : State} (h : step s = .next t) :
    ∃ i rest, decode s.mode s.csD s.fetchBytes = .ok i rest ∧ s.endPc ≠ some s.pc ∧ exec i s = .next t := by
  unfold step at h
  split at h
  · cases h
  · rename_i he
    obtain ⟨i, hf, h⟩ := andThen_eq_next.1 h
    unfold State.fetch at hf
    split at hf
    · cases hf; exact ⟨_, _, ‹_›, he, h⟩
    all_goals cases hf

/-- A step raises what the instruction it has decoded raises. -/
theorem step_eq_fault {s : State} {f : Fault} (h : step s = .fault f) : ∃ i, exec i s = .fault f := by
  unfold step at h
  split at h
  · cases h
  · rcases andThen_eq_fault.1 h with h | ⟨i, -, h⟩
    · unfold State.fetch at h
      split at h <;> cases h
    · exact ⟨i, h⟩

/-- After its count has been decremented an iteration either leaves the instruction or is ready for the next. -/
theorem State.iterated_cases (s : State) (a : AddrSize) (r : Rep) (len : Nat) :
    (s.iterated a r len = (s.setCnt a (s.cnt a - 1)).advance len
      ∧ (s.cnt a - 1 = 0 ∨ (s.setCnt a (s.cnt a - 1)).repEnds r = true))
    ∨ (s.iterated a r len = (s.setCnt a (s.cnt a - 1)).tick
      ∧ s.cnt a - 1 ≠ 0 ∧ (s.setCnt a (s.cnt a - 1)).repEnds r = false) := by
  unfold State.iterated
  simp only [State.cnt_setCnt]
  split
  · exact .inl ⟨rfl, ‹_›⟩
  · rename_i h
    rw [not_or, Bool.not_eq_true] at h
    exact .inr ⟨rfl, h⟩

/-! ## The pieces of an effect -/

theorem evenParity_setWidth {N : Nat} (v : BitVec N) :
    evenParity (v.setWidth 8) = decide (((List.range 8).countP fun k => v.getLsbD k) % 2 = 0) := by
  have : ((List.range 8).countP fun k => (v.setWidth 8).getLsbD k) = (List.range 8).countP fun k => v.getLsbD k :=
    List.countP_congr fun k hk => by simp [List.mem_range.1 hk]
  rw [evenParity, this, beq_eq_decide]

/-- The flags of a comparison are those of the subtraction (40_scas.md R111), whatever is written besides EFLAGS. -/
theorem flagsOfSub_of_eflags {N : Nat} {x y : BitVec N} {s t : State}
    (h : t.eflags = writeStatus s.eflags (subFlags x y)) : FlagsOfSub x y t := by
  have hf : ∀ f, t.flag f = (s.setStatus (subFlags x y)).flag f := fun f => by
    simp only [State.flag, h, State.setStatus_eflags]
  exact
    { cf := by rw [hf, State.flag_setStatus_cf]; rfl
      of := by 
        rw [hf, State.flag_setStatus_of]
        simp only [subFlags]
        cases x.msb <;> cases y.msb <;> cases (x - y).msb <;> rfl
      sf := by rw [hf, State.flag_setStatus_sf]; rfl
      zf := by rw [hf, State.flag_setStatus_zf]; exact beq_eq_decide _ _
      af := by rw [hf, State.flag_setStatus_af]; simp [subFlags, BitVec.ult]
      pf := by rw [hf, State.flag_setStatus_pf]; exact evenParity_setWidth _ }

theorem keepsOtherFlagBits_of_eflags {s t : State} {f : StatusFlags} (h : t.eflags = writeStatus s.eflags f) :
    KeepsOtherFlagBits s t := fun k hk => by
  rw [h, writeStatus_keeps _ _ hk]

theorem viewWritten_writeView (old : BitVec 64) (a : AddrSize) (v : BitVec a.bits) :
    ViewWritten old (writeView old a v) a v := by
  refine ⟨writeView_low old a v, ?_⟩
  cases a with
  | a16 => exact fun k hk => (writeView_a16 old v k).trans (if_neg (Nat.not_lt.2 hk))
  | a32 => exact fun k hk => (writeView_a32 old v k).trans (if_neg (Nat.not_lt.2 hk))
  | a64 => trivial

theorem pcPast_advance {s u : State} (len : Nat) (hp : u.pc = s.pc) (hm : u.mode = s.mode) (hd : u.csD = s.csD) :
    PcPast s (u.advance len) len := by
  have hw : u.ipBits = s.ipBits := State.ipBits_congr hm hd
  have hip : u.ip = s.ip := by simp only [State.ip, hp, hw]
  unfold PcPast
  rw [State.advance_pc, State.nextPc, hip, hw, hp]
  split
  · rfl
  · rw [BitVec.toNat_setWidth]
    exact lt_of_le_of_lt (Nat.mod_le _ _) (BitVec.isLt _)

/-! ## What each piece keeps -/

theorem KeepsRest.trans {s t u : State} (h : KeepsRest s t) (g : KeepsRest t u) : KeepsRest s u where
  es := g.es.trans h.es
  mode := g.mode.trans h.mode
  csD := g.csD.trans h.csD
  cpl := g.cpl.trans h.cpl
  cr0Am := g.cr0Am.trans h.cr0Am
  laBits := g.laBits.trans h.laBits
  paging := g.paging.trans h.paging
  esIllegal := g.esIllegal.trans h.esIllegal
  endPc := g.endPc.trans h.endPc
  memory := fun a => (g.memory a).trans (h.memory a)
  text := fun a => (g.text a).trans (h.text a)

theorem keepsRest_compared (s : State) (n : OpSize) (a : AddrSize) (src : BitVec n.bits) :
    KeepsRest s (s.compared n a src) := by
  constructor <;> intros <;> rfl

theorem keepsRest_setCnt (s : State) (a : AddrSize) (v : BitVec a.bits) : KeepsRest s (s.setCnt a v) := by
  constructor <;> intros <;> rfl

theorem keepsRest_advance (s : State) (len : Nat) : KeepsRest s (s.advance len) := by
  constructor <;> intros <;> rfl

theorem keepsRest_tick (s : State) : KeepsRest s s.tick := by
  constructor <;> intros <;> rfl

theorem keepsRest_skipped (s : State) (a : AddrSize) (len : Nat) : KeepsRest s (s.skipped a len) := by
  constructor <;> intros <;> rfl

theorem keepsRest_iterated (s : State) (a : AddrSize) (r : Rep) (len : Nat) : KeepsRest s (s.iterated a r len) := by
  rcases s.iterated_cases a r len with ⟨h, -⟩ | ⟨h, -⟩ <;> rw [h]
  · exact (keepsRest_setCnt s a _).trans (keepsRest_advance _ len)
  · exact (keepsRest_setCnt s a _).trans (keepsRest_tick _)

theorem State.reg_iterated (s : State) (a : AddrSize) (r : Rep) (len : Nat) {x : Reg} (h : x ≠ .rcx) :
    (s.iterated a r len).reg x = s.reg x := by
  rcases s.iterated_cases a r len with ⟨e, -⟩ | ⟨e, -⟩ <;> rw [e]
  · rw [State.reg_advance, State.reg_setCnt _ _ _ h]
  · rw [State.reg_tick, State.reg_setCnt _ _ _ h]

@[simp] theorem State.iterated_eflags (s : State) (a : AddrSize) (r : Rep) (len : Nat) :
    (s.iterated a r len).eflags = s.eflags := by
  rcases s.iterated_cases a r len with ⟨e, -⟩ | ⟨e, -⟩ <;> rw [e] <;> rfl

@[simp] theorem State.iterated_gpr_rcx (s : State) (a : AddrSize) (r : Rep) (len : Nat) :
    (s.iterated a r len).gpr.rcx = writeView s.gpr.rcx a (s.cnt a - 1) := by
  rcases s.iterated_cases a r len with ⟨e, -⟩ | ⟨e, -⟩ <;> rw [e] <;> rfl

@[simp] theorem State.iterated_gpr_rdi (s : State) (a : AddrSize) (r : Rep) (len : Nat) :
    (s.iterated a r len).gpr.rdi = s.gpr.rdi := by
  rcases s.iterated_cases a r len with ⟨e, -⟩ | ⟨e, -⟩ <;> rw [e] <;> rfl

end Sys2Proof.Machine
end

