-- ==== Sys2Proof/Tests/Slice0.lean ====
section
/-! SUPPORT. Tests by fixed values, each from 95_test_vectors.md or worked out by hand from the rule it names, and for
each statement with hypotheses a theorem that something meets them. -/

namespace Sys2Proof.Tests

open Sys2Proof.Machine

/-! ## Launches -/

/-- ES as 95_test_vectors.md section 4 has it: base 0, limit FFFFFFFFH, not expand-down, not null. -/
def flatEs : Segment :=
  { selector := 0x10, base := 0, limit := 0xFFFFFFFF, expandDown := false, top := 0xFFFFFFFF, null := false }

/-- ES of real-address mode with a base and a limit. -/
def realEs (base limit : BitVec 32) : Segment :=
  { selector := 0, base := base, limit := limit, expandDown := false, top := 0xFFFF, null := false }

/-- ES outside real-address mode with a limit and the expand-down bit, `top` FFFFH. -/
def boundedEs (limit : BitVec 32) (down : Bool) : Segment :=
  { selector := 0x10, base := 0, limit := limit, expandDown := down, top := 0xFFFF, null := false }

/-- A launch: the mode, the text at `pc`, three registers and some bytes of memory. -/
def launch (m : Mode) (d : CodeSize) (pc : BitVec 64) (bytes : List Byte) (rax rcx rdi : BitVec 64)
    (addr : Nat) (data : List Byte) : State :=
  { State.reset with
    mode := m
    csD := d
    pc := pc
    text := placeText [] pc.toNat bytes
    es := flatEs
    gpr := { State.reset.gpr with rax := rax, rcx := rcx, rdi := rdi }
    mem := Memory.writeBytes [] addr data }

/-- "PM32". -/
def pm32 := launch .prot .d32 0x100
/-- "RM16". -/
def rm16 := launch .real .d16 0x100
/-- "LM64". -/
def lm64 := launch .long64 .d32 0x401000

/-- The flags register with DF = 1. -/
def down (s : State) : State :=
  { s with eflags := 0x402 }

/-- ES replaced. -/
def under (e : Segment) (s : State) : State :=
  { s with es := e }

/-- Privilege level 3 with alignment checking enabled. -/
def checked (s : State) : State :=
  { s with cpl := 3, cr0Am := true, eflags := 0x40002 }

/-- `Translate` fails with code 4 on one address. -/
def faulting (lin : BitVec 64) (s : State) : State :=
  { s with paging := [{ lin := lin, cpl := s.cpl, result := .pageFault 4 }] }

/-- CF PF AF ZF SF OF. -/
def flags (s : State) : List Bool :=
  [s.flag .cf, s.flag .pf, s.flag .af, s.flag .zf, s.flag .sf, s.flag .of]

/-- What the vectors list of a next state: `pc`, RCX, RDI and the six status flags. -/
def seen : Host.Outcome State Fault Refusal → Option (BitVec 64 × BitVec 64 × BitVec 64 × List Bool)
  | .next t => some (t.pc, t.gpr.rcx, t.gpr.rdi, flags t)
  | .fault _ => none
  | .refused _ => none

/-- The status flags of a comparison of equal values. -/
def equalFlags : List Bool := [false, true, false, true, false, false]

/-- The fault of an outcome. -/
def faultOf : Host.Outcome State Fault Refusal → Option Fault
  | .next _ => none
  | .fault f => some f
  | .refused _ => none

/-- The refusal of an outcome. -/
def refusalOf : Host.Outcome State Fault Refusal → Option Refusal
  | .next _ => none
  | .fault _ => none
  | .refused r => some r

theorem eq_fault {o : Host.Outcome State Fault Refusal} {f : Fault} (h : faultOf o = some f) : o = .fault f := by
  cases o <;> cases h
  rfl

theorem eq_refused {o : Host.Outcome State Fault Refusal} {r : Refusal} (h : refusalOf o = some r) : o = .refused r := by
  cases o <;> cases h
  rfl

/-- The outcome is a next state. -/
def isNext : Host.Outcome State Fault Refusal → Bool
  | .next _ => true
  | .fault _ => false
  | .refused _ => false

theorem exists_next {o : Host.Outcome State Fault Refusal} (h : isNext o = true) : ∃ t, o = .next t := by
  cases o with
  | next t => exact ⟨t, rfl⟩
  | fault f => cases h
  | refused r => cases h

/-! ## Decoding (95_test_vectors.md section 2) -/

/-- X1 to X6: the bare opcodes. -/
theorem test_decode_bare :
    decode .prot .d32 [0xAE#8] = .ok (.scasb .a32 ⟨[], none⟩) []
    ∧ decode .real .d16 [0xAE#8] = .ok (.scasb .a16 ⟨[], none⟩) []
    ∧ decode .long64 .d32 [0xAE#8] = .ok (.scasb .a64 ⟨[], none⟩) []
    ∧ decode .prot .d32 [0xAF#8] = .ok (.scasd .a32 ⟨[], none⟩) []
    ∧ decode .real .d16 [0xAF#8] = .ok (.scasw .a16 ⟨[], none⟩) []
    ∧ decode .long64 .d32 [0xAF#8] = .ok (.scasd .a64 ⟨[], none⟩) [] := by decide

/-- X7 to X13: the size prefixes. -/
theorem test_decode_sizes :
    decode .prot .d32 [0x66#8, 0xAF#8] = .ok (.scasw .a32 ⟨[.opSize], none⟩) []
    ∧ decode .real .d16 [0x66#8, 0xAF#8] = .ok (.scasd .a16 ⟨[.opSize], none⟩) []
    ∧ decode .long64 .d32 [0x66#8, 0xAF#8] = .ok (.scasw .a64 ⟨[.opSize], none⟩) []
    ∧ decode .prot .d32 [0x67#8, 0xAF#8] = .ok (.scasd .a16 ⟨[.addrSize], none⟩) []
    ∧ decode .real .d16 [0x67#8, 0xAF#8] = .ok (.scasw .a32 ⟨[.addrSize], none⟩) []
    ∧ decode .long64 .d32 [0x67#8, 0xAE#8] = .ok (.scasb .a32 ⟨[.addrSize], none⟩) []
    ∧ decode .prot .d32 [0x66#8, 0x67#8, 0xAF#8] = .ok (.scasw .a16 ⟨[.opSize, .addrSize], none⟩) []
    ∧ decode .prot .d32 [0x67#8, 0x66#8, 0xAF#8] = .ok (.scasw .a16 ⟨[.addrSize, .opSize], none⟩) [] := by decide

/-- X14 to X20: REX in 64-bit mode. -/
theorem test_decode_rex :
    decode .long64 .d32 [0x48#8, 0xAF#8] = .ok (.scasq .a64 ⟨[], some 0x8#4⟩) []
    ∧ decode .long64 .d32 [0x67#8, 0x48#8, 0xAF#8] = .ok (.scasq .a32 ⟨[.addrSize], some 0x8#4⟩) []
    ∧ decode .long64 .d32 [0x66#8, 0x48#8, 0xAF#8] = .ok (.scasq .a64 ⟨[.opSize], some 0x8#4⟩) []
    ∧ decode .long64 .d32 [0x48#8, 0xAE#8] = .ok (.scasb .a64 ⟨[], some 0x8#4⟩) []
    ∧ decode .long64 .d32 [0x47#8, 0xAF#8] = .ok (.scasd .a64 ⟨[], some 0x7#4⟩) []
    ∧ decode .long64 .d32 [0x4F#8, 0xAF#8] = .ok (.scasq .a64 ⟨[], some 0xF#4⟩) [] := by decide

/-- X21: a segment override is kept and selects nothing. -/
theorem test_decode_overrides :
    [0x26#8, 0x2E#8, 0x36#8, 0x3E#8, 0x64#8, 0x65#8].map (fun b => decode .prot .d32 [b, 0xAE#8])
      = [SegReg.es, .cs, .ss, .ds, .fs, .gs].map (fun g => .ok (.scasb .a32 ⟨[.seg g], none⟩) []) := by decide

/-- X22 to X26, and by R84 and R88 the other repeated constructors. -/
theorem test_decode_repeats :
    decode .real .d16 [0xF3#8, 0xAE#8] = .ok (.repeScasb .a16 ⟨[.repe], none⟩) []
    ∧ decode .long64 .d32 [0xF2#8, 0xAE#8] = .ok (.repneScasb .a64 ⟨[.repne], none⟩) []
    ∧ decode .prot .d32 [0xF3#8, 0x66#8, 0xAF#8] = .ok (.repeScasw .a32 ⟨[.repe, .opSize], none⟩) []
    ∧ decode .prot .d32 [0xF2#8, 0x66#8, 0xAF#8] = .ok (.repneScasw .a32 ⟨[.repne, .opSize], none⟩) []
    ∧ decode .prot .d32 [0xF3#8, 0xAF#8] = .ok (.repeScasd .a32 ⟨[.repe], none⟩) []
    ∧ decode .long64 .d32 [0xF2#8, 0xAF#8] = .ok (.repneScasd .a64 ⟨[.repne], none⟩) []
    ∧ decode .long64 .d32 [0xF3#8, 0x48#8, 0xAF#8] = .ok (.repeScasq .a64 ⟨[.repe], some 0x8#4⟩) []
    ∧ decode .long64 .d32 [0x67#8, 0x66#8, 0xF2#8, 0x2E#8, 0x48#8, 0xAF#8]
        = .ok (.repneScasq .a32 ⟨[.addrSize, .opSize, .repne, .seg .cs], some 0x8#4⟩) [] := by decide

/-- X27 to X37, and by R81 and R95 another opcode after REX: what the decoder refuses, and LOCK, which it accepts. -/
theorem test_decode_refused :
    decode .long64 .d32 [0x48#8, 0xF3#8, 0xAF#8] = .error .prefixCombination
    ∧ decode .long64 .d32 [0x48#8, 0x48#8, 0xAF#8] = .error .prefixCombination
    ∧ decode .compat .d32 [0x48#8, 0xAF#8] = .error .notScas
    ∧ decode .prot .d32 [0x66#8, 0x66#8, 0xAF#8] = .error .prefixCombination
    ∧ decode .prot .d32 [0xF2#8, 0xF3#8, 0xAE#8] = .error .prefixCombination
    ∧ decode .prot .d32 [0x26#8, 0x2E#8, 0xAE#8] = .error .prefixCombination
    ∧ decode .prot .d32 [0xF0#8, 0xAE#8] = .ok (.scasb .a32 ⟨[.lock], none⟩) []
    ∧ decode .prot .d32 [0xF0#8, 0xF0#8, 0xAE#8] = .error .prefixCombination
    ∧ decode .prot .d32 [0xF0#8, 0x90#8] = .error .notScas
    ∧ [0xA6#8, 0xA7#8, 0xAA#8, 0xAD#8, 0x90#8].map (fun b => decode .v86 .d16 [b])
        = List.replicate 5 (.error .notScas)
    ∧ decode .long64 .d32 [0x48#8, 0x90#8] = .error .notScas
    ∧ decode .prot .d32 [0xF3#8] = .error .truncated := by decide

/-- The chart's encodings of the explicit-operand rows (95_test_vectors.md section 1.1). -/
theorem test_encode_explicit :
    encode (.scasM8 .a32 ⟨[], none⟩) = [0xAE#8] ∧ encode (.scasM16 .a16 ⟨[], none⟩) = [0xAF#8]
    ∧ encode (.scasM32 .a32 ⟨[], none⟩) = [0xAF#8] ∧ encode (.scasM64 .a64 ⟨[], some 0x8#4⟩) = [0x48#8, 0xAF#8] := by
  decide

/-- The table's words of AE and AF, read in the mode of reset; a word of another opcode (R81, R88). -/
theorem test_table_words :
    decodeTableWord 8 0xAE = some (.scasb .a16 ⟨[], none⟩) ∧ decodeTableWord 8 0xAF = some (.scasw .a16 ⟨[], none⟩)
    ∧ decodeTableWord 8 0xA6 = none := by decide

/-! ## Well-formedness: one ill-formed term for each check -/

theorem test_illFormed_two_of_a_kind : WellFormed .prot .d32 (.scasb .a32 ⟨[.opSize, .opSize], none⟩) = false := by
  decide

theorem test_illFormed_rex_outside_64 : WellFormed .prot .d32 (.scasb .a32 ⟨[], some 0#4⟩) = false := by decide

theorem test_illFormed_repeat_missing : WellFormed .prot .d32 (.repeScasb .a32 ⟨[], none⟩) = false := by decide

theorem test_illFormed_address_size : WellFormed .prot .d32 (.scasb .a16 ⟨[], none⟩) = false := by decide

theorem test_illFormed_operand_size : WellFormed .prot .d32 (.scasw .a32 ⟨[], none⟩) = false := by decide

theorem test_wellFormed :
    WellFormed .long64 .d32 (.repneScasq .a32 ⟨[.addrSize, .opSize, .repne, .seg .cs], some 0x8#4⟩) = true := by decide

/-! ## The flag function (95_test_vectors.md section 3) -/

/-- V4, V11, V14, V26. -/
theorem test_subFlags :
    subFlags 0x7F#8 0xFF#8 = { cf := true, pf := false, af := false, zf := false, sf := true, of := true }
    ∧ subFlags 0x2020#16 0x4120#16 = { cf := true, pf := true, af := false, zf := false, sf := true, of := false }
    ∧ subFlags 0x2211#16 0x4433#16 = { cf := true, pf := true, af := true, zf := false, sf := true, of := false }
    ∧ subFlags 0x100000000#64 0xFFFFFFFF#64
        = { cf := false, pf := false, af := true, zf := false, sf := false, of := false } := by decide

/-! ## One step (95_test_vectors.md sections 4 to 6) -/

/-- T2: DF = 1, a borrow. -/
theorem test_scasb_down :
    seen (step (down (pm32 [0xAE#8] 0x41 0 0x1000 0x1000 [0x42#8])))
      = some (0x101, 0, 0xFFF, [true, true, true, false, true, false]) := by decide

/-- T5: DI wraps and bits 63 to 16 of RDI are kept. -/
theorem test_scasb_wraps_di :
    seen (step (under (realEs 0x10000 0xFFFF) (rm16 [0xAE#8] 0xFF7F 0 0x1234FFFF 0x1FFFF [0x7F#8])))
      = some (0x101, 0, 0x12340000, equalFlags) := by decide

/-- T4. -/
theorem test_scasw :
    seen (step (pm32 [0x66#8, 0xAF#8] 0x44332211 0 0x1002 0x1002 [0x33#8, 0x44#8]))
      = some (0x102, 0, 0x1004, [true, true, true, false, true, false]) := by decide

/-- M6: #GP without an error code in real-address mode. -/
theorem test_scasw_limit :
    step (under (realEs 0 0xFFFF) (rm16 [0xAF#8] 0 0 0xFFFF 0 [])) = .fault (.gp none 0x100) :=
  eq_fault (by decide)

/-- T3: a little-endian doubleword. -/
theorem test_scasd :
    seen (step (pm32 [0xAF#8] 0x44332211 0 0x1004 0x1004 [0x55#8, 0x66#8, 0x77#8, 0x88#8]))
      = some (0x101, 0, 0x1008, [true, false, true, false, true, true]) := by decide

/-- T7: a 16-bit index under a 32-bit default, DF = 1. -/
theorem test_scasd_a16_down :
    seen (step (under { flatEs with base := 0x5000, limit := 0xFFFFF }
      (down (pm32 [0x67#8, 0xAF#8] 0xDEADBEEF 0 0x77770000 0x5000 [0xEF#8, 0xBE#8, 0xAD#8, 0xDE#8]))))
      = some (0x102, 0, 0x7777FFFC, equalFlags) := by decide

/-- T9: EDI is written and the upper half zeroed. -/
theorem test_scasq_a32 :
    seen (step (lm64 [0x67#8, 0x48#8, 0xAF#8] 0x1122334455667788 0 0xFFFFFFFF00003000 0x3000
      [0x11#8, 0x22#8, 0x33#8, 0x44#8, 0x55#8, 0x66#8, 0x77#8, 0x88#8]))
      = some (0x401003, 0, 0x3008, [true, true, false, false, true, true]) := by decide

/-- M14: a non-canonical address. -/
theorem test_scasq_nonCanonical :
    step (lm64 [0x48#8, 0xAF#8] 0 0 0x800000000000 0 []) = .fault (.gp (some 0) 0x401000) :=
  eq_fault (by decide)

/-- T10: EDI wraps. -/
theorem test_scasM8_wraps_edi :
    seen (exec (.scasM8 .a32 ⟨[.addrSize], none⟩) (lm64 [] 0 0 0xFFFFFFFF 0xFFFFFFFF [0x00#8]))
      = some (0x401002, 0, 0, equalFlags) := by decide

/-- M31: LOCK comes before the NULL selector. -/
theorem test_scasM8_lock :
    exec (.scasM8 .a32 ⟨[.lock], none⟩) (under { flatEs with null := true } (pm32 [] 0 0 0 0 [])) = .fault (.ud 0x100) :=
  eq_fault (by decide)

/-- M5 and M4: an expand-down segment. -/
theorem test_scasM16_expandDown :
    exec (.scasM16 .a32 ⟨[.opSize], none⟩) (under (boundedEs 0xFFF true) (pm32 [] 0 0 0xFFF 0 []))
      = .fault (.gp (some 0) 0x100)
    ∧ seen (exec (.scasM16 .a32 ⟨[.opSize], none⟩) (under (boundedEs 0xFFF true) (pm32 [] 0 0 0x1000 0 [])))
      = some (0x102, 0, 0x1002, equalFlags) :=
  ⟨eq_fault (by decide), by decide⟩

/-- M13: the second byte is non-canonical. -/
theorem test_scasM16_intoNonCanonical :
    exec (.scasM16 .a64 ⟨[.opSize], none⟩) (lm64 [] 0 0 0x7FFFFFFFFFFF 0 []) = .refused .operandWrapsOffsetRange :=
  eq_refused (by decide)

/-- T12: the upper half of RAX takes no part. -/
theorem test_scasM32_eax :
    seen (exec (.scasM32 .a64 ⟨[], none⟩) (lm64 [] 0xFFFFFFFF00000000 0 0x2000 0 []))
      = some (0x401001, 0, 0x2004, equalFlags) := by decide

/-- M20: an unaligned doubleword at privilege level 3. -/
theorem test_scasM32_unaligned :
    exec (.scasM32 .a32 ⟨[], none⟩) (checked (pm32 [] 0 0 0x1001 0 [])) = .fault (.ac 0 0x100) :=
  eq_fault (by decide)

/-- T8. -/
theorem test_scasM64 :
    seen (exec (.scasM64 .a64 ⟨[], some 0x8#4⟩) (lm64 [] 0x0123456789ABCDEF 0 0x3000 0x3000
      [0xEF#8, 0xCD#8, 0xAB#8, 0x89#8, 0x67#8, 0x45#8, 0x23#8, 0x01#8]))
      = some (0x401002, 0, 0x3008, equalFlags) := by decide

/-- 6.1, step 3: the count is used up on a mismatch. -/
theorem test_repeScasb_last :
    seen (step (under (realEs 0 0xFFFF) (rm16 [0xF3#8, 0xAE#8] 0x20 1 0x12 0x12 [0x41#8])))
      = some (0x102, 0, 0x13, [true, false, true, false, true, false]) := by decide

/-- 6.8, step 3: a fault of a later element records the address of the prefix byte. -/
theorem test_repeScasb_fault :
    step (under (realEs 0 0x11) (rm16 [0xF3#8, 0xAE#8] 0x20 3 0x12 0x12 [0x20#8])) = .fault (.gp none 0x100) :=
  eq_fault (by decide)

/-- 6.7, step 1: CX and DI alone are written. -/
theorem test_repneScasb_a16 :
    seen (step (pm32 [0x67#8, 0xF2#8, 0xAE#8] 0x03 0xAAAA0002 0xBBBB0000 0 [0x01#8]))
      = some (0x100, 0xAAAA0001, 0xBBBB0001, [false, false, false, false, false, false]) := by decide

/-- M28: the faulting address is the failing byte's. -/
theorem test_repeScasw_pageFault :
    step (faulting 0x2000 (pm32 [0xF3#8, 0x66#8, 0xAF#8] 0 1 0x1FFF 0 [])) = .fault (.pf 4 0x2000 0x100) :=
  eq_fault (by decide)

/-- 6.2, step 2. -/
theorem test_repneScasw_found :
    seen (step (pm32 [0xF2#8, 0x66#8, 0xAF#8] 0x4433 1 0x1002 0x1002 [0x33#8, 0x44#8]))
      = some (0x103, 0, 0x1004, equalFlags) := by decide

/-- 6.3, step 3: a mismatch ends the scan before the count does. -/
theorem test_repeScasd_mismatch :
    seen (step (pm32 [0xF3#8, 0xAF#8] 0 2 0x3008 0x3008 [0x01#8]))
      = some (0x102, 1, 0x300C, [true, true, true, false, true, false]) := by decide

/-- 6.4: a zero count skips. -/
theorem test_repneScasd_zero_count :
    seen (step { lm64 [0xF2#8, 0xAF#8] 0xDEADBEEF 0 0x1234 0 [] with eflags := 0x83 })
      = some (0x401002, 0, 0x1234, [true, false, false, false, true, false]) := by decide

/-- 6.5, step 1: the repetition goes on. -/
theorem test_repeScasq_goes_on :
    seen (step (lm64 [0xF3#8, 0x48#8, 0xAF#8] 0 2 0x4000 0 [])) = some (0x401000, 1, 0x4008, equalFlags) := by decide

/-- 6.6: a 32-bit count in 64-bit mode. -/
theorem test_repneScasq_a32 :
    seen (step (lm64 [0x67#8, 0xF2#8, 0x48#8, 0xAF#8] 1 0x500000001 0xFFFFFFFF00005000 0x5000 [0x01#8]))
      = some (0x401004, 0, 0x5008, equalFlags) := by decide

/-- The first instruction after reset, loaded where the machine fetches: 10_state.md R36, 40_scas.md R112. -/
theorem test_first_step : seen (step (State.reset.withFetchWord 8 0xAE)) = some (0xFFF1, 0, 1, equalFlags) := by decide

/-- The vector numbers of R154. -/
theorem test_vectors :
    (Fault.ud 0).vector = 6 ∧ (Fault.gp none 0).vector = 13 ∧ (Fault.pf 0 0 0).vector = 14 ∧ (Fault.ac 0 0).vector = 17 := by
  decide

/-! ## What meets the hypotheses of the statements -/

theorem witness_DecodeOfEncodeGivesInstr :
    WellFormed .long64 .d32 (.repneScasq .a32 ⟨[.addrSize, .opSize, .repne, .seg .cs], some 0x8#4⟩) = true
    ∧ WellFormed .real .d16 (.scasM16 .a16 ⟨[], none⟩) = true
    ∧ WellFormed .v86 .d16 (.repeScasd .a32 ⟨[.lock, .addrSize, .opSize, .repe], none⟩) = true := by decide

theorem witness_EncodeOfDecodeGivesBytes :
    decode .long64 .d32 [0xF3#8, 0x48#8, 0xAF#8, 0x90#8] = .ok (.repeScasq .a64 ⟨[.repe], some 0x8#4⟩) [0x90#8] := by
  decide

theorem witness_TwoPrefixesOfOneKindRefused :
    ¬ AtMostOneOfEachKind [.opSize, .opSize] ∧ ¬ AtMostOneOfEachKind [.repne, .repe]
    ∧ ¬ AtMostOneOfEachKind [.seg .es, .lock, .seg .cs] := by decide

theorem witness_RexNotLastRefused :
    AtMostOneOfEachKind [.addrSize, .repne] ∧ (∃ p : Prefix, 0xF3#8 = p.byte) ∧ ∃ v : BitVec 4, 0x40#8 = rexByte v :=
  ⟨by decide, ⟨.repe, by decide⟩, ⟨0, by decide⟩⟩

theorem witness_RexByteOutside64BitModeRefused :
    Mode.compat ≠ .long64 ∧ AtMostOneOfEachKind [.opSize] ∧ 0x40 ≤ (0x40#8).toNat ∧ (0x40#8).toNat ≤ 0x4F
    ∧ 0x40 ≤ (0x4F#8).toNat ∧ (0x4F#8).toNat ≤ 0x4F := by decide

/-- `F3 48 3F`, `F3 48 50` in 64-bit mode, and `F3 90` outside it. -/
theorem witness_OtherOpcodeRefused :
    AtMostOneOfEachKind [.repe] ∧ (some 0x8#4 ≠ none → Mode.long64 = .long64)
    ∧ ((none : Option (BitVec 4)) ≠ none → Mode.v86 = .long64) ∧ (∀ p : Prefix, 0x3F#8 ≠ p.byte)
    ∧ (0x3F#8).toNat < 0x40 ∧ 0x3F#8 ≠ 0xAE#8 ∧ 0x3F#8 ≠ 0xAF#8 ∧ (∀ p : Prefix, 0x50#8 ≠ p.byte)
    ∧ 0x4F < (0x50#8).toNat ∧ 0x50#8 ≠ 0xAE#8 ∧ 0x50#8 ≠ 0xAF#8 ∧ (∀ p : Prefix, 0x90#8 ≠ p.byte)
    ∧ 0x90#8 ≠ 0xAE#8 ∧ 0x90#8 ≠ 0xAF#8 := by
  have all : ∀ b : Byte, (∀ p ∈ legacyPrefixes, b ≠ p.byte) → ∀ p : Prefix, b ≠ p.byte := by
    intro b h p
    exact h p (by cases p with | seg r => cases r <;> decide | _ => decide)
  exact ⟨by decide, by decide, by decide, all _ (by decide), by decide, by decide, by decide, all _ (by decide),
    by decide, by decide, by decide, all _ (by decide), by decide, by decide⟩

theorem witness_AddressSizeSelected :
    decode .long64 .d16 [0x67#8, 0xAE#8] = .ok (.scasb .a32 ⟨[.addrSize], none⟩) []
    ∧ decode .real .d16 [0x67#8, 0xAE#8] = .ok (.scasb .a32 ⟨[.addrSize], none⟩) []
    ∧ decode .compat .d32 [0x67#8, 0xAE#8] = .ok (.scasb .a16 ⟨[.addrSize], none⟩) [] := by decide

theorem witness_OperandSizeSelected :
    decode .long64 .d32 ([0x66#8, 0x48#8] ++ 0xAF#8 :: []) = .ok (.scasq .a64 ⟨[.opSize], some 0x8#4⟩) []
    ∧ decode .long64 .d32 ([0x66#8, 0x47#8] ++ 0xAF#8 :: []) = .ok (.scasw .a64 ⟨[.opSize], some 0x7#4⟩) []
    ∧ decode .v86 .d16 ([0x66#8] ++ 0xAF#8 :: []) = .ok (.scasd .a16 ⟨[.opSize], none⟩) []
    ∧ decode .compat .d32 ([0x66#8] ++ 0xAF#8 :: []) = .ok (.scasw .a32 ⟨[.opSize], none⟩) []
    ∧ decode .long64 .d32 ([0x48#8] ++ 0xAE#8 :: []) = .ok (.scasb .a64 ⟨[], some 0x8#4⟩) [] := by decide

theorem witness_ValidityByMode :
    rexW 0x8#4 = true ∧ rexW 0xF#4 = true
    ∧ decode .long64 .d16 [0x48#8, 0xAF#8] = .ok (.scasq .a64 ⟨[], some 0x8#4⟩) []
    ∧ (Instr.scasq .a64 ⟨[], some 0x8#4⟩).opSize = .b64 := by decide

/-- The longest instruction with LOCK and without, and the shortest. -/
theorem witness_LengthOfDecodedInstr :
    decode .long64 .d32 [0xF0#8, 0x67#8, 0x66#8, 0xF2#8, 0x2E#8, 0x48#8, 0xAF#8]
      = .ok (.repneScasq .a32 ⟨[.lock, .addrSize, .opSize, .repne, .seg .cs], some 0x8#4⟩) []
    ∧ decode .long64 .d32 [0x67#8, 0x66#8, 0xF2#8, 0x2E#8, 0x48#8, 0xAF#8]
      = .ok (.repneScasq .a32 ⟨[.addrSize, .opSize, .repne, .seg .cs], some 0x8#4⟩) []
    ∧ Prefix.lock ∉ [Prefix.addrSize, .opSize, .repne, .seg .cs]
    ∧ decode .v86 .d16 [0xAE#8] = .ok (.scasb .a16 ⟨[], none⟩) [] := by decide

/-- An instruction that ends at the top of the instruction-pointer range. -/
def atTop : State := launch .real .d16 0xFFFE [0xF3#8, 0xAE#8] 0 2 0 0 []

theorem witness_StepRunsDecodedInstr :
    WellFormed atTop.mode atTop.csD (.repeScasb .a16 ⟨[.repe], none⟩) = true
    ∧ atTop.TextHolds (encode (.repeScasb .a16 ⟨[.repe], none⟩)) ∧ atTop.endPc ≠ some atTop.pc := by decide

/-- Prefixes up to the last byte of the instruction-pointer range, and no opcode byte. -/
def pastTop : State := launch .real .d16 0xFFFE [0xF3#8, 0x66#8] 0 0 0 0 []

theorem witness_StepRefusesByName :
    (let s : State := { pm32 [0xAE#8] 0 0 0 0 [] with endPc := some 0x100 };
      s.endPc = some s.pc)
    ∧ (let s : State := { pm32 [0x90#8] 0 0 0 0 [] with endPc := some 0x101 };
      s.endPc ≠ some s.pc ∧ decode s.mode s.csD s.fetchBytes = .error .notScas)
    ∧ (let s := pm32 [0x66#8, 0x66#8, 0xAF#8] 0 0 0 0 [];
      s.endPc ≠ some s.pc ∧ decode s.mode s.csD s.fetchBytes = .error .prefixCombination)
    ∧ (let s := pm32 [0xF3#8] 0 0 0 0 [];
      s.endPc ≠ some s.pc ∧ decode s.mode s.csD s.fetchBytes = .error .truncated
      ∧ s.ip + s.fetchBytes.length < 2 ^ s.ipBits)
    ∧ (pastTop.endPc ≠ some pastTop.pc ∧ decode pastTop.mode pastTop.csD pastTop.fetchBytes = .error .truncated
      ∧ ¬ pastTop.ip + pastTop.fetchBytes.length < 2 ^ pastTop.ipBits)
    ∧ (State.reset.endPc ≠ some State.reset.pc ∧ lookupCell State.reset.text State.reset.ip = none) := by
  and_intros <;> decide

theorem witness_LockRaisesInvalidOpcode :
    Prefix.lock ∈ (Instr.repeScasq .a64 ⟨[.lock, .repe], some 0x8#4⟩).prefixes.legacy := by decide

/-- The last byte of the segment, the first byte and the last of the canonical addresses of each half. -/
theorem witness_ScasbCompletes :
    Prefixes.hasLock ⟨[], none⟩ = false
    ∧ (let s := under (realEs 0x10000 0xFFFF) (rm16 [] 0 0 0xFFFF 0 []);
      s.Readable (s.idx .a16).toNat .b8 .a16)
    ∧ (let s := checked (pm32 [] 0 0 0xFFFFFFFF 0 []);
      s.Readable (s.idx .a32).toNat .b8 .a32)
    ∧ (let s := lm64 [] 0 0 0x7FFFFFFFFFFF 0 [];
      s.Readable (s.idx .a64).toNat .b8 .a64)
    ∧ (let s := lm64 [] 0 0 0xFFFF800000000000 0 [];
      s.Readable (s.idx .a64).toNat .b8 .a64) := by
  and_intros <;> decide

theorem witness_ScaswCompletes :
    Prefixes.hasLock ⟨[.opSize], none⟩ = false
    ∧ (let s := under (boundedEs 0xFFF true) (pm32 [] 0 0 0x1000 0 []);
      s.Readable (s.idx .a32).toNat .b16 .a32)
    ∧ (let s := under (boundedEs 0xFFF true) (pm32 [] 0 0 0xFFFE 0 []);
      s.Readable (s.idx .a16).toNat .b16 .a16) := by
  and_intros <;> decide

theorem witness_ScasdCompletes :
    Prefixes.hasLock ⟨[], none⟩ = false
    ∧ (let s := under (boundedEs 0xFFF false) (pm32 [] 0 0 0xFFC 0 []);
      s.Readable (s.idx .a32).toNat .b32 .a32)
    ∧ (let s := { checked (pm32 [] 0 0 0x1001 0 []) with cpl := 2 };
      s.Readable (s.idx .a32).toNat .b32 .a32) := by
  and_intros <;> decide

theorem witness_ScasqCompletes :
    Prefixes.hasLock ⟨[], some 0x8#4⟩ = false
    ∧ (let s := checked (lm64 [] 0 0 0xFFFFFFFFFFFFFFF8 0 []);
      s.Readable (s.idx .a64).toNat .b64 .a64)
    ∧ (let s := lm64 [] 0 0 0xFFFFFFF8 0 [];
      s.Readable (s.idx .a32).toNat .b64 .a32) := by
  and_intros <;> decide

/-- A count of 1, and the largest. -/
theorem witness_RepeatedScasbIterates :
    Prefixes.hasLock ⟨[.repe], none⟩ = false
    ∧ (let s := under (realEs 0 0xFFFF) (rm16 [] 0 1 0xFFFF 0 []);
      s.cnt .a16 ≠ 0 ∧ s.Readable (s.idx .a16).toNat .b8 .a16)
    ∧ (let s := lm64 [] 0 0xFFFFFFFFFFFFFFFF 0 0 [];
      s.cnt .a64 ≠ 0 ∧ s.Readable (s.idx .a64).toNat .b8 .a64) := by
  and_intros <;> decide

theorem witness_RepeatedScaswIterates :
    Prefixes.hasLock ⟨[.repe, .opSize], none⟩ = false
    ∧ (let s := pm32 [] 0 1 0xFFFFFFFE 0 [];
      s.cnt .a32 ≠ 0 ∧ s.Readable (s.idx .a32).toNat .b16 .a32) := by
  and_intros <;> decide

theorem witness_RepeatedScasdIterates :
    Prefixes.hasLock ⟨[.repne], none⟩ = false
    ∧ (let s := launch .v86 .d16 0x100 [] 0 0xFFFF 0 0 [];
      s.cnt .a16 ≠ 0 ∧ s.Readable (s.idx .a16).toNat .b32 .a16) := by
  and_intros <;> decide

theorem witness_RepeatedScasqIterates :
    Prefixes.hasLock ⟨[.repne], some 0x8#4⟩ = false
    ∧ (let s := lm64 [] 0 0x500000001 0x3004 0 [];
      s.cnt .a32 ≠ 0 ∧ s.Readable (s.idx .a32).toNat .b64 .a32) := by
  and_intros <;> decide

/-- With the upper half of RCX unspecified afterwards, and without. -/
theorem witness_ZeroCountSkips :
    (Instr.repeScasb .a32 ⟨[.addrSize, .repe], none⟩).rep ≠ none
    ∧ (Instr.repeScasb .a32 ⟨[.addrSize, .repe], none⟩).prefixes.hasLock = false
    ∧ (lm64 [] 0 0xFFFFFFFF00000000 0 0 []).cnt .a32 = 0 ∧ (rm16 [] 0 0x10000 0 0 []).cnt .a16 = 0 := by decide

theorem witness_SpellingsAgree :
    (let a := AddrSize.a64; let p : Prefixes := ⟨[], some 0x8#4⟩;
      (Instr.scasM64 a p, Instr.scasq a p) ∈ [(Instr.scasM8 a p, Instr.scasb a p), (.scasM16 a p, .scasw a p),
        (.scasM32 a p, .scasd a p), (.scasM64 a p, .scasq a p)]
      ∧ WellFormed .long64 .d32 (.scasq a p) = true) := by
  decide

theorem witness_SegmentOverrideHasNoEffect :
    WellFormed .prot .d32 (instrOf .b16 none .a32 ⟨[.opSize] ++ [], none⟩) = true
    ∧ (∀ h, Prefix.seg h ∉ [Prefix.opSize] ++ [])
    ∧ ∃ s : State, s.ip + Prefixes.length ⟨[.opSize] ++ .seg .gs :: [], none⟩ < 2 ^ s.ipBits
      ∧ (∃ t, exec (instrOf .b16 none .a32 ⟨[.opSize] ++ [], none⟩) s = .next t)
      ∧ ∃ u, exec (instrOf .b16 none .a32 ⟨[.opSize] ++ .seg .gs :: [], none⟩) s = .next u :=
  ⟨by decide, by simp, pm32 [] 0 0 0x1000 0 [], by decide, exists_next (by decide), exists_next (by decide)⟩

/-- Up and down, at the ends of the index range. -/
theorem witness_IndexUpdate :
    (let s := under (realEs 0 0xFFFF) (rm16 [] 0 1 0x1234FFFF 0 []);
      Reads (.repeScasb .a16 ⟨[.repe], none⟩) s ∧ s.Readable (s.idx .a16).toNat .b8 .a16 ∧ s.flag .df = false)
    ∧ (let s := down (lm64 [] 0 0 0 0 []);
      Reads (.scasq .a32 ⟨[.addrSize], some 0x8#4⟩) s ∧ s.Readable (s.idx .a32).toNat .b64 .a32 ∧ s.flag .df = true) := by
  and_intros <;> decide

theorem witness_MemReadIsLittleEndian : 0 < 1 ∧ 7 < 8 := by decide

theorem witness_OperandBytes :
    (faulting 0x2000 (pm32 [] 0 0 0 0 [])).PagesOk 0x1FFC .b32 ∧ 0 < OpSize.b8.bytes ∧ 3 < OpSize.b32.bytes := by decide

theorem witness_LinearAddress :
    (pm32 [] 0 0 0 0 []).mode ≠ .long64 ∧ (lm64 [] 0 0 0 0 []).mode = .long64 ∧ 0xFFFFFFFFFFFFFFF8 + 7 < 2 ^ 64 := by decide

theorem witness_CanonicalForm :
    canonical .la48 0x7FFFFFFFFFFF#64 = true ∧ canonical .la48 0x800000000000#64 = false
    ∧ canonical .la57 0x800000000000#64 = true ∧ canonical .la48 0xFFFF800000000000#64 = true := by decide

/-- The last ordinary operand, the first that wraps, in a segment of each direction. -/
theorem witness_LimitVerdict :
    0xFFFE < 2 ^ AddrSize.a16.bits ∧ 0xFFFE + OpSize.b16.bytes ≤ 2 ^ AddrSize.a16.bits
    ∧ 0xFFFF < 2 ^ AddrSize.a16.bits ∧ 2 ^ AddrSize.a16.bits < 0xFFFF + OpSize.b16.bytes
    ∧ (boundedEs 0xFFF false).expandDown = false ∧ (boundedEs 0xFFF true).expandDown = true := by decide

theorem witness_NullSelectorRaisesGp :
    (let s := under { flatEs with null := true } (pm32 [] 0 0 0 0 []);
      Reads (.scasb .a32 ⟨[], none⟩) s ∧ (s.mode = .prot ∨ s.mode = .compat) ∧ s.es.null = true)
    ∧ (let s := under { flatEs with null := true } (launch .compat .d32 0x100 [] 0 1 0 0 []);
      Reads (.repeScasd .a32 ⟨[.repe], none⟩) s ∧ (s.mode = .prot ∨ s.mode = .compat) ∧ s.es.null = true) := by
  and_intros <;> decide

/-- M2, M6 and M7. -/
theorem witness_LimitRaisesGp :
    (let s := under (boundedEs 0xFFF false) (pm32 [] 0 0 0xFFD 0 []);
      Reads (.scasd .a32 ⟨[], none⟩) s ∧ s.mode ≠ .long64 ∧ s.es.null = false
      ∧ limitVerdict s.es (s.idx .a32).toNat OpSize.b32.bytes .a32 = .outside)
    ∧ (let s := under (realEs 0 0xFFFF) (rm16 [] 0 0 0xFFFF 0 []);
      Reads (.scasw .a16 ⟨[], none⟩) s ∧ s.mode = .real
      ∧ limitVerdict s.es (s.idx .a16).toNat OpSize.b16.bytes .a16 = .outside)
    ∧ (let s := under { flatEs with limit := 0xFFFFF } (pm32 [] 0 0 0xFFFE 0 []);
      Reads (.scasd .a16 ⟨[.addrSize], none⟩) s ∧ s.es.null = false
      ∧ limitVerdict s.es (s.idx .a16).toNat OpSize.b32.bytes .a16 = .unknown) := by
  and_intros <;> decide

/-- M14, M13 and M17. -/
theorem witness_NonCanonicalRaisesGp :
    (let s := lm64 [] 0 0 0x800000000000 0 [];
      Reads (.scasq .a64 ⟨[], some 0x8#4⟩) s ∧ s.mode = .long64
      ∧ canonical s.laBits (s.lin (s.idx .a64).toNat 0) = false)
    ∧ (let s := lm64 [] 0 0 0x7FFFFFFFFFFF 0 [];
      Reads (.scasw .a64 ⟨[.opSize], none⟩) s ∧ canonical s.laBits (s.lin (s.idx .a64).toNat 0) = true
      ∧ ∃ k < OpSize.b16.bytes, canonical s.laBits (s.lin (s.idx .a64).toNat k) = false)
    ∧ (let s := lm64 [] 0 0 0xFFFF8000FFFFFFFE 0 [];
      Reads (.scasd .a32 ⟨[.addrSize], none⟩) s ∧ canonical s.laBits (s.lin (s.idx .a32).toNat 0) = true
      ∧ 2 ^ AddrSize.a32.bits < (s.idx .a32).toNat + OpSize.b32.bytes) := by
  and_intros <;> decide

theorem witness_IllegalAddressRaisesGp :
    (let s := { pm32 [] 0 0 0x1000 0 [] with esIllegal := [(0x1000, 2)] };
      Reads (.scasw .a32 ⟨[.opSize], none⟩) s ∧ s.mode = .prot ∧ s.es.null = false
      ∧ s.LimitOk (s.idx .a32).toNat .b16 .a32 ∧ ((s.idx .a32).toNat, OpSize.b16.bytes) ∈ s.esIllegal) := by
  and_intros <;> decide

/-- M20, M21, M22 and M25; M26 and M24. -/
theorem witness_AlignmentCheckRaisedExactly :
    (let s := checked (pm32 [] 0 0 0x1001 0 []);
      Reads (.scasd .a32 ⟨[], none⟩) s ∧ s.SegmentOk (s.idx .a32).toNat .b32 .a32
      ∧ s.PagesOk (s.idx .a32).toNat .b32 ∧ s.AcRaised (s.idx .a32).toNat .b32)
    ∧ (let s := { checked (pm32 [] 0 0 0x1001 0 []) with cpl := 0 };
      Reads (.scasd .a32 ⟨[], none⟩) s ∧ s.SegmentOk (s.idx .a32).toNat .b32 .a32
      ∧ s.PagesOk (s.idx .a32).toNat .b32 ∧ ¬ s.AcRaised (s.idx .a32).toNat .b32)
    ∧ (let s := checked (launch .v86 .d16 0x100 [] 0 0 1 0 []);
      Reads (.scasw .a16 ⟨[], none⟩) s ∧ s.SegmentOk (s.idx .a16).toNat .b16 .a16
      ∧ s.PagesOk (s.idx .a16).toNat .b16 ∧ s.AcRaised (s.idx .a16).toNat .b16)
    ∧ (let s := checked (lm64 [] 0 0 0x3004 0 []);
      Reads (.scasq .a64 ⟨[], some 0x8#4⟩) s ∧ s.SegmentOk (s.idx .a64).toNat .b64 .a64
      ∧ s.PagesOk (s.idx .a64).toNat .b64 ∧ s.AcRaised (s.idx .a64).toNat .b64)
    ∧ (Instr.scasb .a32 ⟨[], none⟩).opSize = .b8 ∧ (checked (rm16 [] 0 0 1 0 [])).mode = .real := by
  and_intros <;> decide

/-- M28 and M29. -/
theorem witness_UntranslatedRaisesPf :
    (let s := faulting 0x2000 (pm32 [] 0 0 0x1FFF 0 []);
      Reads (.scasw .a32 ⟨[.opSize], none⟩) s ∧ s.SegmentOk (s.idx .a32).toNat .b16 .a32
      ∧ ¬ s.PagesOk (s.idx .a32).toNat .b16)
    ∧ (let s := faulting 0x1001 (checked (pm32 [] 0 0 0x1001 0 []));
      Reads (.scasd .a32 ⟨[], none⟩) s ∧ s.SegmentOk (s.idx .a32).toNat .b32 .a32
      ∧ ¬ s.PagesOk (s.idx .a32).toNat .b32 ∧ s.AcRaised (s.idx .a32).toNat .b32) := by
  and_intros <;> decide

theorem witness_FaultsAreThoseOfTheMode :
    step (pm32 [0xF0#8, 0xAE#8] 0 0 0 0 []) = .fault (.ud 0x100)
    ∧ step (under (realEs 0 0xF) (rm16 [0xAE#8] 0 0 0x10 0 [])) = .fault (.gp none 0x100)
    ∧ step (faulting 0x2000 (pm32 [0xAE#8] 0 0 0x2000 0 [])) = .fault (.pf 4 0x2000 0x100)
    ∧ step (checked (lm64 [0x48#8, 0xAF#8] 0 0 0x3004 0 [])) = .fault (.ac 0 0x401000) :=
  ⟨eq_fault (by decide), eq_fault (by decide), eq_fault (by decide), eq_fault (by decide)⟩

theorem witness_StepWritesOnlyScanState :
    (∃ t, step (pm32 [0xAE#8] 0x41 0 0x1000 0x1000 [0x41#8]) = .next t)
    ∧ ∃ t, step (lm64 [0xF2#8, 0x48#8, 0xAF#8] 0x41 2 0x1000 0x1000 [0x41#8]) = .next t :=
  ⟨exists_next (by decide), exists_next (by decide)⟩

/-- One of them an execution that ends at the top of the instruction-pointer range. -/
theorem witness_StepKeepsInvariant :
    (pm32 [0xAE#8] 0x41 0 0x1000 0x1000 [0x41#8]).Inv
    ∧ (∃ t, step (pm32 [0xAE#8] 0x41 0 0x1000 0x1000 [0x41#8]) = .next t)
    ∧ State.Inv { atTop with gpr := { atTop.gpr with rcx := 1 } }
    ∧ ∃ t, step { atTop with gpr := { atTop.gpr with rcx := 1 } } = .next t :=
  ⟨by decide, exists_next (by decide), by decide, exists_next (by decide)⟩

theorem witness_StepAdvancesOrCountsDown :
    (∃ t, step (pm32 [0xF3#8, 0xAE#8] 0 2 0x1000 0 []) = .next t)
    ∧ ∃ t, step (pm32 [0xF3#8, 0xAE#8] 0 1 0x1000 0 []) = .next t :=
  ⟨exists_next (by decide), exists_next (by decide)⟩

/-- A count of 2, and a count of 0. -/
theorem witness_RepeatedScanIsLeft :
    (let s := pm32 [0xF3#8, 0xAE#8] 0 2 0x1000 0 [];
      let i := Instr.repeScasb .a32 ⟨[.repe], none⟩;
      WellFormed s.mode s.csD i = true ∧ i.rep ≠ none ∧ s.TextHolds (encode i) ∧ s.endPc ≠ some s.pc
      ∧ s.ip + i.prefixes.length < 2 ^ s.ipBits ∧ s.cnt i.addrSize = 2)
    ∧ (let s := pm32 [0xF2#8, 0xAF#8] 0 0 0x1000 0 [];
      let i := Instr.repneScasd .a32 ⟨[.repne], none⟩;
      WellFormed s.mode s.csD i = true ∧ i.rep ≠ none ∧ s.TextHolds (encode i) ∧ s.endPc ≠ some s.pc
      ∧ s.ip + i.prefixes.length < 2 ^ s.ipBits ∧ s.cnt i.addrSize = 0) := by
  and_intros <;> decide

theorem witness_LongModeIgnoresEs : (lm64 [] 0 0 0 0 []).mode = .long64 := by decide

theorem witness_UpperAccumulatorBitsIgnored :
    (0xAABBCCDD11223300#64).setWidth (Instr.scasb .a64 ⟨[], none⟩).opSize.bits
      = (lm64 [] 0x00 0 0 0 []).gpr.rax.setWidth (Instr.scasb .a64 ⟨[], none⟩).opSize.bits := by decide

/-- A memory that differs just below and just above the operand. -/
theorem witness_OnlyOperandBytesRead :
    (let s := pm32 [] 0 0 0x1000 0x1000 [0x41#8];
      let m : List Host.Cell := [(0xFFF, 0x01#8), (0x1000, 0x41#8), (0x1001, 0x02#8)];
      m ≠ s.mem ∧ s.translate (s.lin 0x1000 0) = .ok 0x1000 ∧ Memory.readByte m 0x1000 = Memory.readByte s.mem 0x1000) := by
  and_intros <;> decide

theorem witness_MemoryReadsBackWrites :
    Memory.wf [(0x1000, 0x41#8), (0x1002, 0xFF#8)] = true ∧ 0x1001 ≠ 0x1002 := by decide

/-- A listed pair, also behind one of another privilege level, a page that is not listed, and real-address mode. -/
theorem witness_TranslateAnswers :
    (let s : State := { pm32 [] 0 0 0 0 [] with
        paging := [{ lin := 0x2000, cpl := 0, result := .ok 0x7000 }, { lin := 0x2000, cpl := 3, result := .pageFault 5 }],
        cpl := 3 };
      s.mode ≠ .real ∧ pagingWfFrom 0 s.paging = true
      ∧ s.paging = [{ lin := 0x2000, cpl := 0, result := .ok 0x7000 }] ++
          { lin := 0x2000, cpl := s.cpl, result := .pageFault 5 } :: []
      ∧ (∀ e ∈ [({ lin := 0x2000, cpl := 0, result := .ok 0x7000 } : PageEntry)], e.lin ≠ 0x2000 ∨ e.cpl ≠ s.cpl)
      ∧ ({ lin := 0x2000, cpl := 3, result := .pageFault 5 } : PageEntry) ∈ s.paging
      ∧ (∀ e ∈ s.paging, e.lin ≠ 0x2001 ∨ e.cpl ≠ s.cpl))
    ∧ (faulting 0x2000 (rm16 [] 0 0 0 0 [])).mode = .real := by
  and_intros <;> decide

end Sys2Proof.Tests
end

/-! The decoder on the bytes of a well-formed instruction. -/

namespace Sys2Proof

/-- What it takes for an instruction to have words in a mode, clause by clause. -/
theorem wellFormed_iff (m : Mode) (d : CodeSize) (i : Instr) :
    WellFormed m d i = true ↔
      distinctKinds i.prefixes.legacy = true ∧ (i.prefixes.rex = none ∨ m = .long64) ∧ i.prefixes.rep = i.rep
      ∧ i.addrSize = addrSizeOf m d i.prefixes ∧ opSizeOf m d i.prefixes i.opSize.opcode = some i.opSize := by
  simp [WellFormed, Instr.legacyOk, Instr.rexOk, Instr.repOk, Instr.addrSizeOk, Instr.opSizeOk, and_assoc]

/-! ## The length -/

/-- The five kinds of legacy prefixes (30_encoding.md R92), numbered. -/
def Prefix.kind : Prefix → Fin 5
  | .lock => 0
  | .repne | .repe => 1
  | .seg _ => 2
  | .opSize => 3
  | .addrSize => 4

theorem Prefix.sameKind_iff (p q : Prefix) : p.sameKind q = true ↔ p.kind = q.kind := by
  cases p <;> cases q <;> simp [Prefix.sameKind, Prefix.kind]

theorem distinctKinds_iff_nodup (ps : List Prefix) : distinctKinds ps = true ↔ (ps.map Prefix.kind).Nodup := by
  induction ps with
  | nil => simp [distinctKinds]
  | cons p ps ih => simp [distinctKinds, ih, Prefix.sameKind_iff, eq_comm (a := p.kind)]

/-- Admitted legacy prefixes are at most one of each of the five kinds. -/
theorem length_le_of_distinctKinds {ps : List Prefix} (h : distinctKinds ps = true) : ps.length ≤ 5 := by
  simpa using ((distinctKinds_iff_nodup ps).1 h).length_le_card

/-- The decoder is given enough bytes for every well-formed instruction (30_encoding.md R82). -/
theorem length_encode_le_of_wellFormed {m : Mode} {d : CodeSize} {i : Instr} (h : WellFormed m d i = true) :
    (encode i).length ≤ maxInstrBytes := by
  obtain ⟨hkinds, -⟩ := (wellFormed_iff m d i).1 h
  have hlegacy := length_le_of_distinctKinds hkinds
  rw [Laws.EncodingShape.length_encode, Prefixes.length, maxInstrBytes]
  split <;> omega

/-! ## Decoding what was encoded -/

@[simp] theorem decodeFrom_opcode (m : Mode) (d : CodeSize) (seen : List Prefix) (n : OpSize) (rest : List Byte) :
    decodeFrom m d seen (n.opcode :: rest) = decodeOpcode m d ⟨seen, none⟩ n.opcode rest := by
  simp [decodeFrom]

@[simp] theorem decodeFrom_rexByte_opcode (d : CodeSize) (seen : List Prefix) (v : BitVec 4) (n : OpSize)
    (rest : List Byte) :
    decodeFrom .long64 d seen (rexByte v :: n.opcode :: rest)
      = decodeOpcode .long64 d ⟨seen, some v⟩ n.opcode rest := by
  simp [decodeFrom, decodeAfterRex]

/-- The decoder takes the prefixes of an instruction off its bytes and comes to its opcode byte. -/
theorem decode_encode_append_eq_decodeOpcode {m : Mode} {i : Instr} (d : CodeSize) (rest : List Byte)
    (hkinds : distinctKinds i.prefixes.legacy = true) (hrex : i.prefixes.rex = none ∨ m = .long64) :
    decode m d (encode i ++ rest) = decodeOpcode m d i.prefixes i.opSize.opcode rest := by
  unfold encode Prefixes.encode decode
  generalize i.prefixes = p at hkinds hrex ⊢
  obtain ⟨legacy, rex⟩ := p
  rw [List.append_assoc, List.append_assoc, decodeFrom_legacy m d [] legacy _ hkinds]
  cases rex with
  | none => simp
  | some v =>
    obtain rfl : m = .long64 := hrex.resolve_left (by simp)
    simp

/-- The decoder gives a well-formed instruction back from its own bytes, whatever follows them
(30_encoding.md R95). -/
theorem decode_encode_append {m : Mode} {d : CodeSize} {i : Instr} (rest : List Byte)
    (h : WellFormed m d i = true) : decode m d (encode i ++ rest) = .ok i.noOperandsForm rest := by
  obtain ⟨hkinds, hrex, hrep, haddr, hop⟩ := (wellFormed_iff m d i).1 h
  rw [decode_encode_append_eq_decodeOpcode d rest hkinds hrex, decodeOpcode, hop, hrep, ← haddr, noOperandsForm_eq]

end Sys2Proof

/-! What the machine fetches, and the step that follows. -/

namespace Sys2Proof.Machine

theorem State.ip_lt (s : State) : s.ip < 2 ^ s.ipBits :=
  Nat.mod_lt _ (Nat.two_pow_pos _)

/-- Where the text lists no byte at the instruction pointer, nothing is fetched. -/
theorem State.fetchBytes_of_lookupCell_eq_none {s : State} (h : lookupCell s.text s.ip = none) :
    s.fetchBytes = [] := by
  simp [State.fetchBytes, maxInstrBytes, State.textFrom, h]

/-- The decoder is given the bytes that the text holds, and perhaps more after them. -/
theorem State.fetchBytes_of_textHolds {s : State} {bs : List Byte} (hlen : bs.length ≤ maxInstrBytes)
    (h : s.TextHolds bs) : ∃ rest, s.fetchBytes = bs ++ rest := by
  obtain ⟨htop, hbytes⟩ := h
  exact s.textFrom_of_holds s.ip maxInstrBytes bs hlen htop hbytes

theorem State.fetch_of_decode_ok {s : State} {i : Instr} {rest : List Byte}
    (h : decode s.mode s.csD s.fetchBytes = .ok i rest) : s.fetch = .next i := by
  rw [State.fetch, h]

/-- The refusal by which a fetch answers each error of the decoder. -/
def State.refusalOf (s : State) : DecodeError → Refusal
  | .notScas => .notScas
  | .prefixCombination => .prefixCombination
  | .truncated => s.fetchEnd

theorem State.fetch_of_decode_error {s : State} {e : DecodeError}
    (h : decode s.mode s.csD s.fetchBytes = .error e) : s.fetch = .refused (s.refusalOf e) := by
  rw [State.fetch, h]
  cases e <;> rfl

theorem step_of_endPc {s : State} (h : s.endPc = some s.pc) : step s = .refused .runEnded :=
  if_pos h

section
variable {s : State} (hend : s.endPc ≠ some s.pc)
include hend

theorem step_of_decode_ok {i : Instr} {rest : List Byte} (h : decode s.mode s.csD s.fetchBytes = .ok i rest) :
    step s = exec i s := by
  rw [step, if_neg hend, State.fetch_of_decode_ok h, andThen_next]

theorem step_of_decode_error {e : DecodeError} (h : decode s.mode s.csD s.fetchBytes = .error e) :
    step s = .refused (s.refusalOf e) := by
  rw [step, if_neg hend, State.fetch_of_decode_error h, andThen_refused]

/-- With no byte at the instruction pointer the text ends below the top of the range, which the instruction pointer
never reaches. -/
theorem step_of_lookupCell_eq_none (h : lookupCell s.text s.ip = none) : step s = .refused .noProgramText := by
  have hbytes := State.fetchBytes_of_lookupCell_eq_none h
  have hdecode : decode s.mode s.csD s.fetchBytes = .error .truncated := by rw [hbytes]; rfl
  have hbelow : s.ip + s.fetchBytes.length < 2 ^ s.ipBits := by simpa [hbytes] using s.ip_lt
  rw [step_of_decode_error hend hdecode, State.refusalOf, State.fetchEnd, if_pos hbelow]

end

/-- Settles O12: the text gives the decoder the instruction's bytes and perhaps more, and the decoder gives the
instruction back from them. -/
theorem stepRunsDecodedInstr : Obligations.StepRunsDecodedInstr := by
  intro s i hwf htext hend
  obtain ⟨rest, hbytes⟩ := State.fetchBytes_of_textHolds (length_encode_le_of_wellFormed hwf) htext
  have hdecode : decode s.mode s.csD s.fetchBytes = .ok i.noOperandsForm rest := by
    rw [hbytes]
    exact decode_encode_append rest hwf
  exact step_of_decode_ok hend hdecode

/-- Settles O13: a decoder's error is answered by the refusal of its name, and where the text ends at `pc` the decoder
is given nothing. -/
theorem stepRefusesByName : Obligations.StepRefusesByName := fun _ =>
  ⟨step_of_endPc,
    fun hend hdecode => step_of_decode_error hend hdecode,
    fun hend hdecode => step_of_decode_error hend hdecode,
    fun hend hdecode => step_of_decode_error hend hdecode,
    fun hend hcell => step_of_lookupCell_eq_none hend hcell⟩

end Sys2Proof.Machine

/-! The status flags, the register views and the translation of the state. -/

namespace Sys2Proof.Machine

/-- Settles O28: at the place of a status flag its value is read back, and elsewhere the old bit. -/
theorem statusWriteKeepsOtherBits : Obligations.StatusWriteKeepsOtherBits := by
  intro v f k
  by_cases hk : k ∈ [0, 2, 4, 6, 7, 11]
  · simp only [List.mem_cons, List.not_mem_nil, or_false] at hk
    obtain rfl | rfl | rfl | rfl | rfl | rfl := hk
    all_goals simp only [writeStatus, getLsbD_setBit, Flag.bit, Nat.reduceLT]; rfl
  · rw [writeStatus_keeps v f hk]
    simp only [List.mem_cons, List.not_mem_nil, or_false, not_or] at hk
    simp [hk]

theorem keepsRegsBut_setIdx (s : State) (a : AddrSize) (v : BitVec a.bits) :
    KeepsRegsBut [.rdi] s (s.setIdx a v) := fun _ hr =>
  State.reg_setIdx s a v (by simpa using hr)

theorem keepsRegsBut_setCnt (s : State) (a : AddrSize) (v : BitVec a.bits) :
    KeepsRegsBut [.rcx] s (s.setCnt a v) := fun _ hr =>
  State.reg_setCnt s a v (by simpa using hr)

/-- Settles O29: both writes replace their register by its written view and touch no other. -/
theorem viewWrites : Obligations.ViewWrites := fun s a v =>
  ⟨viewWritten_writeView s.gpr.rdi a v, keepsRegsBut_setIdx s a v,
    viewWritten_writeView s.gpr.rcx a v, keepsRegsBut_setCnt s a v⟩

/-! ## Translation -/

theorem le_key_of_pagingWfFrom {lo : Nat} {es : List PageEntry} {e : PageEntry}
    (hwf : pagingWfFrom lo es = true) (he : e ∈ es) : lo ≤ e.key := by
  induction es generalizing lo with
  | nil => cases he
  | cons d es ih =>
    simp only [pagingWfFrom, Bool.and_eq_true, decide_eq_true_eq] at hwf
    obtain ⟨⟨hlo, -⟩, htail⟩ := hwf
    obtain rfl | he := List.mem_cons.1 he
    · exact hlo
    · have := ih htail he
      omega

/-- In the canonical form a listed pair is found, since no pair is listed twice. -/
theorem lookupPage_of_mem {lo : Nat} {es : List PageEntry} {e : PageEntry} (hwf : pagingWfFrom lo es = true)
    (he : e ∈ es) : lookupPage es e.lin e.cpl = some e.result := by
  induction es generalizing lo with
  | nil => cases he
  | cons d es ih =>
    simp only [pagingWfFrom, Bool.and_eq_true] at hwf
    obtain ⟨-, htail⟩ := hwf
    obtain rfl | he := List.mem_cons.1 he
    · simp [lookupPage]
    · have hkey := le_key_of_pagingWfFrom htail he
      have hne : ¬ (d.lin = e.lin ∧ d.cpl = e.cpl) := by
        rintro ⟨hlin, hcpl⟩
        simp only [PageEntry.key, hlin, hcpl] at hkey
        omega
      rw [lookupPage, if_neg hne, ih htail he]

/-- Settles O52: outside real-address mode the first entry of the pair answers, and in the canonical form it is the
only one. -/
theorem translateAnswers : Obligations.TranslateAnswers := by
  intro s lin
  refine ⟨fun hm => State.translate_of_real hm lin, fun hm front back t hlist hfront => ?_,
    fun hm hwf e he hlin hcpl => ?_, fun hm hnone => ?_⟩
  all_goals rw [State.translate_of_not_real hm]
  · rw [hlist, lookupPage_append front _ lin s.cpl hfront]
    simp [lookupPage]
  · rw [← hlin, ← hcpl, lookupPage_of_mem hwf he, Option.getD_some]
  · rw [lookupPage_eq_none s.paging lin s.cpl hnone, Option.getD_none]

end Sys2Proof.Machine

/-! The canonical form of data memory: equal contents are equal lists. -/

namespace Sys2Proof.Machine

theorem risingFrom_cons {lo : Nat} {c : Host.Cell} {cs : List Host.Cell} :
    risingFrom lo (c :: cs) = true ↔ lo ≤ c.1 ∧ risingFrom (c.1 + 1) cs = true := by
  simp [risingFrom]

theorem lookupCell_eq_none_of_lt {lo x : Nat} {cs : List Host.Cell} (h : risingFrom lo cs = true) (hx : x < lo) :
    lookupCell cs x = none := by
  induction cs generalizing lo with
  | nil => rfl
  | cons c cs ih =>
    obtain ⟨hlo, htail⟩ := risingFrom_cons.1 h
    rw [lookupCell, if_neg (by omega), ih htail (by omega)]

/-- The first entry of a rising list has the least address listed. -/
theorem head_le_of_lookupCell_eq_some {lo x : Nat} {c : Host.Cell} {cs : List Host.Cell} {b : Byte}
    (h : risingFrom lo (c :: cs) = true) (hx : lookupCell (c :: cs) x = some b) : c.1 ≤ x := by
  by_contra hlt
  have hfrom : risingFrom c.1 (c :: cs) = true := risingFrom_cons.2 ⟨le_rfl, (risingFrom_cons.1 h).2⟩
  rw [lookupCell_eq_none_of_lt hfrom (Nat.lt_of_not_le hlt)] at hx
  cases hx

theorem lookupCell_head (c : Host.Cell) (cs : List Host.Cell) : lookupCell (c :: cs) c.1 = some c.2 :=
  if_pos rfl

theorem lookupCell_tail {lo : Nat} {c : Host.Cell} {cs : List Host.Cell} (h : risingFrom lo (c :: cs) = true)
    (x : Nat) : lookupCell cs x = if x = c.1 then none else lookupCell (c :: cs) x := by
  split
  · rename_i hx
    exact lookupCell_eq_none_of_lt (risingFrom_cons.1 h).2 (by omega)
  · rename_i hx
    rw [lookupCell, if_neg (Ne.symm hx)]

/-- Rising lists in which every address is listed alike are equal. -/
theorem eq_of_lookupCell_eq {lo : Nat} {cs ds : List Host.Cell} (hcs : risingFrom lo cs = true)
    (hds : risingFrom lo ds = true) (h : ∀ x, lookupCell cs x = lookupCell ds x) : cs = ds := by
  induction cs generalizing lo ds with
  | nil =>
    cases ds with
    | nil => rfl
    | cons d ds => simpa [lookupCell] using h d.1
  | cons c cs ih =>
    cases ds with
    | nil => simpa [lookupCell] using h c.1
    | cons d ds =>
      have hdc : lookupCell (d :: ds) c.1 = some c.2 := by rw [← h, lookupCell_head]
      have hcd : lookupCell (c :: cs) d.1 = some d.2 := by rw [h, lookupCell_head]
      have haddr : c.1 = d.1 :=
        Nat.le_antisymm (head_le_of_lookupCell_eq_some hcs hcd) (head_le_of_lookupCell_eq_some hds hdc)
      have hbyte : c.2 = d.2 := by
        rw [haddr, lookupCell_head] at hdc
        exact (Option.some.inj hdc).symm
      have htail : cs = ds := by
        refine ih (risingFrom_cons.1 hcs).2 (haddr ▸ (risingFrom_cons.1 hds).2) fun x => ?_
        rw [lookupCell_tail hcs, lookupCell_tail hds, h, haddr]
      rw [Prod.ext haddr hbyte, htail]

/-- No entry of canonical memory holds the byte that an unlisted address reads as. -/
theorem Memory.lookupCell_ne_unlistedByte {m : List Host.Cell} (h : Memory.wf m = true) (x : Nat) :
    lookupCell m x ≠ some Config.unlistedByte := by
  obtain ⟨-, hall⟩ := Bool.and_eq_true_iff.1 h
  clear h
  induction m with
  | nil => simp [lookupCell]
  | cons c cs ih =>
    simp only [List.all_cons, Bool.and_eq_true, bne_iff_ne, ne_eq] at hall
    obtain ⟨hc, hcs⟩ := hall
    rw [lookupCell]
    split
    · simpa using hc
    · exact ih hcs

/-- Canonical memory lists exactly the bytes that differ from what an unlisted address reads as. -/
theorem Memory.lookupCell_eq {m : List Host.Cell} (h : Memory.wf m = true) (x : Nat) :
    lookupCell m x
      = if Memory.readByte m x = Config.unlistedByte then none else some (Memory.readByte m x) := by
  have hne := Memory.lookupCell_ne_unlistedByte h x
  unfold Memory.readByte
  cases hx : lookupCell m x with
  | none => simp
  | some b =>
    have hb : b ≠ Config.unlistedByte := fun e => hne (by rw [hx, e])
    simp [hb]

theorem Memory.eq_of_readByte_eq {m m' : List Host.Cell} (h : Memory.wf m = true) (h' : Memory.wf m' = true)
    (hread : ∀ x, Memory.readByte m' x = Memory.readByte m x) : m' = m :=
  eq_of_lookupCell_eq (Bool.and_eq_true_iff.1 h').1 (Bool.and_eq_true_iff.1 h).1 fun x => by
    rw [Memory.lookupCell_eq h', Memory.lookupCell_eq h, hread]

/-- Settles O51: a write is read back and keeps the canonical form, in which the contents determine the list. -/
theorem memoryReadsBackWrites : Obligations.MemoryReadsBackWrites := fun m a b hwf =>
  ⟨by rw [Memory.readByte_writeByte, if_pos rfl],
    fun x hx => by rw [Memory.readByte_writeByte, if_neg hx],
    Memory.wf_writeByte a b hwf,
    fun _ hwf' hread => Memory.eq_of_readByte_eq hwf hwf' hread⟩

end Sys2Proof.Machine
/-! What every step keeps. -/

namespace Sys2Proof.Machine

/-- `P` passes through each of the updates that the next state of a step is made of. -/
structure KeptByUpdates (P : State → Prop) : Prop where
  compared : ∀ (s : State) (n : OpSize) (a : AddrSize) (src : BitVec n.bits), P s → P (s.compared n a src)
  setCnt : ∀ (s : State) (a : AddrSize) (v : BitVec a.bits), P s → P (s.setCnt a v)
  skipped : ∀ (s : State) (a : AddrSize) (len : Nat), P s → P (s.skipped a len)
  advance : ∀ (s : State) (len : Nat), P s → P (s.advance len)
  tick : ∀ s : State, P s → P s.tick

section
variable {P : State → Prop} (hP : KeptByUpdates P) {s t : State}
include hP

theorem KeptByUpdates.iterated (a : AddrSize) (r : Rep) (len : Nat) (hs : P s) : P (s.iterated a r len) := by
  have hcnt := hP.setCnt s a (s.cnt a - 1) hs
  rcases s.iterated_cases a r len with ⟨h, -⟩ | ⟨h, -⟩ <;> rw [h]
  · exact hP.advance _ len hcnt
  · exact hP.tick _ hcnt

theorem KeptByUpdates.of_exec {i : Instr} (h : exec i s = .next t) (hs : P s) : P t := by
  have hcmp := hP.compared s i.opSize i.addrSize (s.operand (s.idx i.addrSize).toNat i.opSize) hs
  cases hrep : i.rep with
  | none =>
    rw [exec_plain hrep, scas_eq_next] at h
    obtain ⟨-, -, rfl⟩ := h
    exact hP.advance _ _ hcmp
  | some r =>
    rw [exec_repeated hrep, repScas_eq_next] at h
    obtain ⟨-, ⟨-, rfl⟩ | ⟨-, -, rfl⟩⟩ := h
    · exact hP.skipped s _ _ hs
    · exact hP.iterated _ r _ hcmp

/-- Every step keeps what each update keeps. -/
theorem KeptByUpdates.of_step (h : step s = .next t) (hs : P s) : P t := by
  obtain ⟨_, _, -, -, hexec⟩ := step_eq_next h
  exact hP.of_exec hexec hs

end

/-! ## The invariant -/

theorem State.inv_advance {s : State} (len : Nat) (h : s.Inv) : (s.advance len).Inv := by
  obtain ⟨hmem, htext, hpaging, hpc, htop, hcpl⟩ := h
  exact ⟨hmem, htext, hpaging, s.nextPc_lt len hpc, htop, hcpl⟩

theorem keptByUpdates_inv : KeptByUpdates State.Inv where
  compared _ _ _ _ h := h
  setCnt _ _ _ h := h
  skipped _ _ len h := State.inv_advance len h
  advance _ len h := State.inv_advance len h
  tick _ h := h

/-- Settles O43: of what the invariant reads, a step writes `pc` alone, which stays in its range. -/
theorem stepKeepsInvariant : Obligations.StepKeepsInvariant := fun _ _ hs h =>
  keptByUpdates_inv.of_step h hs

/-! ## The frame -/

/-- Nothing but RDI, RCX, the six status flags, `pc` and the counter of free values differs. -/
structure KeepsAllButScanState (s t : State) : Prop where
  regs : KeepsRegsBut [.rdi, .rcx] s t
  otherFlags : KeepsOtherFlagBits s t
  rest : KeepsRest s t

theorem KeepsRest.refl (s : State) : KeepsRest s s := by
  constructor <;> intros <;> rfl

theorem KeepsAllButScanState.refl (s : State) : KeepsAllButScanState s s where
  regs _ _ := rfl
  otherFlags _ _ := rfl
  rest := .refl s

theorem KeepsAllButScanState.trans {s t u : State} (h : KeepsAllButScanState s t) (g : KeepsAllButScanState t u) :
    KeepsAllButScanState s u where
  regs r hr := (g.regs r hr).trans (h.regs r hr)
  otherFlags k hk := (g.otherFlags k hk).trans (h.otherFlags k hk)
  rest := h.rest.trans g.rest

theorem KeepsRegsBut.mono {rs rs' : List Reg} {s t : State} (h : KeepsRegsBut rs s t) (hsub : rs ⊆ rs') :
    KeepsRegsBut rs' s t := fun r hr => h r fun hmem => hr (hsub hmem)

theorem keepsAllButScanState_compared (s : State) (n : OpSize) (a : AddrSize) (src : BitVec n.bits) :
    KeepsAllButScanState s (s.compared n a src) where
  regs := (keepsRegsBut_setIdx (s.setStatus _) a _).mono (by simp)
  otherFlags := keepsOtherFlagBits_of_eflags rfl
  rest := keepsRest_compared s n a src

theorem keepsAllButScanState_setCnt (s : State) (a : AddrSize) (v : BitVec a.bits) :
    KeepsAllButScanState s (s.setCnt a v) where
  regs := (keepsRegsBut_setCnt s a v).mono (by simp)
  otherFlags _ _ := rfl
  rest := keepsRest_setCnt s a v

theorem keepsAllButScanState_skipped (s : State) (a : AddrSize) (len : Nat) :
    KeepsAllButScanState s (s.skipped a len) where
  regs _ hr := State.reg_skipped s a len (by simp_all)
  otherFlags _ _ := rfl
  rest := keepsRest_skipped s a len

theorem keepsAllButScanState_advance (s : State) (len : Nat) : KeepsAllButScanState s (s.advance len) where
  regs r _ := s.reg_advance len r
  otherFlags _ _ := rfl
  rest := keepsRest_advance s len

theorem keepsAllButScanState_tick (s : State) : KeepsAllButScanState s s.tick where
  regs r _ := s.reg_tick r
  otherFlags _ _ := rfl
  rest := keepsRest_tick s

theorem keptByUpdates_keepsAllButScanState (s : State) : KeptByUpdates (KeepsAllButScanState s) where
  compared u n a src h := h.trans (keepsAllButScanState_compared u n a src)
  setCnt u a v h := h.trans (keepsAllButScanState_setCnt u a v)
  skipped u a len h := h.trans (keepsAllButScanState_skipped u a len)
  advance u len h := h.trans (keepsAllButScanState_advance u len)
  tick u h := h.trans (keepsAllButScanState_tick u)

/-- Settles O42: each update of a step writes the scan state alone. -/
theorem stepWritesOnlyScanState : Obligations.StepWritesOnlyScanState := fun s _ h =>
  have hkeeps := (keptByUpdates_keepsAllButScanState s).of_step h (.refl s)
  ⟨hkeeps.regs, hkeeps.otherFlags, hkeeps.rest⟩

end Sys2Proof.Machine
/-! A change of the state that an instruction neither reads nor overwrites passes through its execution. -/

namespace Sys2Proof.Machine

/-- The change `g` leaves alone what the updates of an execution read, and commutes with them. -/
structure CommutesWithUpdates (g : State → State) : Prop where
  pc : ∀ s, (g s).pc = s.pc
  cnt : ∀ s a, (g s).cnt a = s.cnt a
  flag : ∀ s f, (g s).flag f = s.flag f
  setCnt : ∀ s a v, (g s).setCnt a v = g (s.setCnt a v)
  skipped : ∀ s a len, (g s).skipped a len = g (s.skipped a len)
  advance : ∀ s len, (g s).advance len = g (s.advance len)
  tick : ∀ s, (g s).tick = g s.tick

section
variable {g : State → State} (hg : CommutesWithUpdates g)
include hg

theorem CommutesWithUpdates.iterated_eq (s : State) (a : AddrSize) (r : Rep) (len : Nat) :
    (g s).iterated a r len = g (s.iterated a r len) := by
  have hends : ∀ t : State, (g t).repEnds r = t.repEnds r := fun t => by
    cases r <;> simp only [State.repEnds, hg.flag]
  simp only [State.iterated, hg.cnt, hg.setCnt, hends, hg.advance, hg.tick]
  split <;> rfl

theorem CommutesWithUpdates.unlessLocked_eq {s : State} {o o' : Host.Outcome State Fault Refusal} (p : Prefixes)
    (h : o' = andThen o fun t => .next (g t)) :
    unlessLocked p (g s) o' = andThen (unlessLocked p s o) fun t => .next (g t) := by
  cases hl : p.hasLock with
  | true => rw [unlessLocked_of_lock hl, unlessLocked_of_lock hl, hg.pc, andThen_fault]
  | false => rw [unlessLocked_of_not_lock hl, unlessLocked_of_not_lock hl, h]

/-- What passes through the comparison passes through the instruction. -/
theorem CommutesWithUpdates.exec_eq {i : Instr} {s : State}
    (h : scasExec i.opSize i.addrSize (g s)
      = andThen (scasExec i.opSize i.addrSize s) fun t => .next (g t)) :
    exec i (g s) = andThen (exec i s) fun t => .next (g t) := by
  cases hrep : i.rep with
  | none =>
    rw [exec_plain hrep, exec_plain hrep]
    refine hg.unlessLocked_eq i.prefixes ?_
    rw [h]
    cases scasExec i.opSize i.addrSize s <;> simp [hg.advance]
  | some r =>
    rw [exec_repeated hrep, exec_repeated hrep]
    refine hg.unlessLocked_eq i.prefixes ?_
    rw [hg.cnt]
    split
    · rw [hg.skipped, andThen_next]
    · rw [h]
      cases scasExec i.opSize i.addrSize s <;> simp [hg.iterated_eq]

end

/-! ## RAX -/

/-- The state with another RAX. -/
def State.setRax (v : BitVec 64) (s : State) : State :=
  { s with gpr := { s.gpr with rax := v } }

theorem withRax_eq (v : BitVec 64) (o : Host.Outcome State Fault Refusal) :
    withRax v o = andThen o fun t => .next (t.setRax v) := by
  cases o <;> rfl

theorem commutesWithUpdates_setRax (v : BitVec 64) : CommutesWithUpdates (State.setRax v) where
  pc _ := rfl
  cnt _ _ := rfl
  flag _ _ := rfl
  setCnt _ _ _ := rfl
  skipped _ _ _ := rfl
  advance _ _ := rfl
  tick _ := rfl

/-- A comparison reads of RAX the view of its operand size (10_state.md R21). -/
theorem scasExec_setRax {n : OpSize} {s : State} {v : BitVec 64} (a : AddrSize)
    (h : v.setWidth n.bits = s.gpr.rax.setWidth n.bits) :
    scasExec n a (s.setRax v) = andThen (scasExec n a s) fun t => .next (t.setRax v) := by
  have hread : readEs ((s.setRax v).idx a).toNat n a (s.setRax v) = readEs (s.idx a).toNat n a s := rfl
  have hacc : (s.setRax v).acc n = s.acc n := h
  have hcompared : ∀ src, (s.setRax v).compared n a src = (s.compared n a src).setRax v := fun src => by
    rw [State.compared, hacc]
    rfl
  rw [scasExec, hread, scasExec]
  cases readEs (s.idx a).toNat n a s <;> simp [hcompared]

/-- Settles O49: the accumulator's view is all that a comparison reads of RAX, and the other updates read none of
it. -/
theorem upperAccumulatorBitsIgnored : Obligations.UpperAccumulatorBitsIgnored := fun i s v h => by
  rw [withRax_eq]
  exact (commutesWithUpdates_setRax v).exec_eq (scasExec_setRax i.addrSize h)

end Sys2Proof.Machine

/-! The bytes of the operand, their linear addresses, and the two conditions on its offsets. -/

namespace Sys2Proof.Machine

/-! ## Bytes -/

/-- Settles O30: the value read is the little-endian value of its bytes, of which byte `i` is read back. -/
theorem memReadIsLittleEndian : Obligations.MemReadIsLittleEndian := by
  intro m addr n i hi
  rw [Memory.read, extract_leValue _ _ i (by simp) (by simpa using hi)]
  simp

/-- Settles O31: when every byte translates, the operand is the little-endian value of the bytes at the physical
addresses. -/
theorem operandBytes : Obligations.OperandBytes := by
  intro s off n hpages k hk
  obtain ⟨ps, hps, hlen, htranslate⟩ := physicals_of_pagesOk hpages
  have hk' : k < ps.length := hlen ▸ hk
  refine ⟨ps[k], htranslate k hk', ?_⟩
  rw [State.operand, hps, extract_leValue _ _ k (by rw [n.bits_eq, List.length_map, hlen]) (by simpa using hk')]
  simp

/-! ## Linear addresses -/

theorem State.lin_of_long {s : State} (h : s.mode = .long64) (off i : Nat) :
    s.lin off i = BitVec.ofNat 64 (off + i) := by
  simp only [State.lin, h]

theorem State.lin_of_not_long {s : State} (h : s.mode ≠ .long64) (off i : Nat) :
    s.lin off i = (s.es.base + BitVec.ofNat 32 (off + i)).setWidth 64 := by
  unfold State.lin
  split
  · contradiction
  all_goals rfl

/-- Settles O32: outside 64-bit mode the sum wraps in 32 bits, and in it the offset is the address. -/
theorem linearAddress : Obligations.LinearAddress := by
  intro s off i
  constructor
  · intro hm
    rw [State.lin_of_not_long hm, BitVec.toNat_setWidth_of_le (by decide), BitVec.toNat_add, BitVec.toNat_ofNat]
    omega
  · intro hm hlt
    rw [State.lin_of_long hm, BitVec.toNat_ofNat, Nat.mod_eq_of_lt hlt]

/-! ## Canonical form -/

/-- Words are equal after a right shift by `n` exactly when they agree from bit `n` up. -/
theorem ushiftRight_eq_iff {w : Nat} (x y : BitVec w) (n : Nat) :
    x >>> n = y >>> n ↔ ∀ k, n ≤ k → k < w → x.getLsbD k = y.getLsbD k := by
  constructor
  · intro h k hk _
    simpa [Nat.add_sub_cancel' hk] using congrArg (BitVec.getLsbD · (k - n)) h
  · intro h
    apply BitVec.eq_of_getLsbD_eq
    intro j _
    rw [BitVec.getLsbD_ushiftRight, BitVec.getLsbD_ushiftRight]
    by_cases hlt : n + j < w
    · exact h (n + j) (Nat.le_add_right n j) hlt
    · rw [BitVec.getLsbD_of_ge x _ (by omega), BitVec.getLsbD_of_ge y _ (by omega)]

theorem canonical_iff (la : LaBits) (x : BitVec 64) :
    canonical la x = true ↔
      (∀ k, la.width - 1 ≤ k → k < 64 → x.getLsbD k = false)
      ∨ ∀ k, la.width - 1 ≤ k → k < 64 → x.getLsbD k = true := by
  have hzeros := ushiftRight_eq_iff x 0#64 (la.width - 1)
  have hones := ushiftRight_eq_iff x (BitVec.allOnes 64) (la.width - 1)
  simp only [BitVec.zero_ushiftRight, BitVec.getLsbD_zero] at hzeros
  rw [canonical, Bool.or_eq_true, beq_iff_eq, beq_iff_eq, hzeros, hones]
  refine or_congr_right (forall_congr' fun k => forall₂_congr fun _ hk => ?_)
  rw [BitVec.getLsbD_allOnes, decide_eq_true hk]

theorem LaBits.width_le (la : LaBits) : la.width ≤ 64 := by
  cases la <;> decide

/-- Settles O33: bit 63 is one of the bits compared, and it is 0 or 1. -/
theorem canonicalForm : Obligations.CanonicalForm := by
  intro la x
  have hw := la.width_le
  rw [canonical_iff]
  constructor
  · rintro (h | h) k hk hlt <;> rw [h k hk hlt, h 63 (by omega) (by omega)]
  · intro h
    cases h63 : x.getLsbD 63 with
    | false => exact .inl fun k hk hlt => (h k hk hlt).trans h63
    | true => exact .inr fun k hk hlt => (h k hk hlt).trans h63

/-! ## The limit -/

section
variable {es : Segment} {off : Nat} {n : OpSize} {a : AddrSize}

/-- In the ordinary case of 20_memory.md R55 the verdict is never `Unknown`. -/
theorem limitVerdict_of_le (h : off + n.bytes ≤ 2 ^ a.bits) :
    limitVerdict es off n.bytes a = if (∀ k < n.bytes, es.admits (off + k)) then .inside else .outside := by
  have hn := n.bytes_pos
  have hlast : off + n.bytes - 1 < 2 ^ a.bits := by omega
  simp only [Segment.admits_all, limitVerdict, if_pos hlast]
  cases es.expandDown <;> simp

section
variable (h : 2 ^ a.bits < off + n.bytes)
include h

theorem limitVerdict_of_lt_expandUp (hup : es.expandDown = false) :
    limitVerdict es off n.bytes a =
      if es.limit.toNat < off + n.bytes - 1 ∧ es.limit ≠ 0xFFFFFFFF#32 then .outside else .unknown := by
  have hlast : ¬ off + n.bytes - 1 < 2 ^ a.bits := by omega
  have hlimit : es.limit.toNat ≠ 0xFFFFFFFF ↔ es.limit ≠ 0xFFFFFFFF#32 :=
    (BitVec.toNat_ne (y := 0xFFFFFFFF#32)).symm
  simp only [limitVerdict, if_neg hlast, if_pos hup, hlimit]

theorem limitVerdict_of_lt_expandDown (hdown : es.expandDown = true) :
    limitVerdict es off n.bytes a =
      if off ≤ es.limit.toNat ∨ (es.top.toNat < off + n.bytes - 1 ∧ es.top = 0xFFFF#32) then .outside
      else .unknown := by
  have hlast : ¬ off + n.bytes - 1 < 2 ^ a.bits := by omega
  have htop : es.top.toNat = 0xFFFF ↔ es.top = 0xFFFF#32 := BitVec.toNat_inj (y := 0xFFFF#32)
  simp only [limitVerdict, if_neg hlast, hdown, Bool.true_eq_false, if_false, htop]
  by_cases hlow : off ≤ es.limit.toNat <;> simp [hlow]

end
end

/-- Settles O34: the ordinary case, and the wrapping case in each direction of expansion. (`limitVerdict` itself is the
model's function.) -/
theorem limitVerdict_cases : Obligations.LimitVerdict := fun _ _ _ _ _ =>
  ⟨limitVerdict_of_le, limitVerdict_of_lt_expandUp, limitVerdict_of_lt_expandDown⟩

end Sys2Proof.Machine

/-! What the checks of the operand read raise and refuse, in the order of the read (20_memory.md R58). -/

namespace Sys2Proof.Machine

/-! ## The #GP of each check -/

/-- The #GP that every check of the read raises (60_exceptions.md R152). -/
theorem takeException_gp {α : Type} (s : State) :
    (takeException (.gp s.gpCode) s : Host.Outcome α Fault Refusal)
      = .fault (.gp (if s.mode = .real then none else some 0) s.pc) := by
  rw [takeException, State.gpCode_eq]

theorem takeException_gp_of_not_real {α : Type} {s : State} (h : s.mode ≠ .real) :
    (takeException (.gp s.gpCode) s : Host.Outcome α Fault Refusal) = .fault (.gp (some 0) s.pc) := by
  rw [takeException_gp, if_neg h]

theorem checksSelector_iff (m : Mode) : checksSelector m = true ↔ m = .prot ∨ m = .compat := by
  cases m <;> simp [checksSelector]

theorem ne_real_of_selector {m : Mode} (h : m = .prot ∨ m = .compat) : m ≠ .real := by
  rcases h with rfl | rfl <;> simp

theorem ne_long_of_selector {m : Mode} (h : m = .prot ∨ m = .compat) : m ≠ .long64 := by
  rcases h with rfl | rfl <;> simp

section
variable {s : State} {off : Nat} {n : OpSize} {a : AddrSize}

theorem checkNull_of_null (hm : s.mode = .prot ∨ s.mode = .compat) (hnull : s.es.null = true) :
    checkNull s = .fault (.gp (some 0) s.pc) := by
  rw [checkNull, (checksSelector_iff _).2 hm, hnull,
    takeException_gp_of_not_real (ne_real_of_selector hm)]
  rfl

theorem checkNull_of_long (hm : s.mode = .long64) : checkNull s = .next () :=
  (checkNull_eq_next s).2 fun h => absurd hm (ne_long_of_selector h)

theorem checkIllegal_of_mem (hm : s.mode = .prot ∨ s.mode = .compat) (hmem : (off, n.bytes) ∈ s.esIllegal) :
    checkIllegal off n s = .fault (.gp (some 0) s.pc) := by
  rw [checkIllegal, (checksSelector_iff _).2 hm, List.contains_iff_mem.2 hmem,
    takeException_gp_of_not_real (ne_real_of_selector hm)]
  rfl

theorem checkLimit_of_outside (h : limitVerdict s.es off n.bytes a = .outside) :
    checkLimit off n a s = .fault (.gp (if s.mode = .real then none else some 0) s.pc) := by
  rw [checkLimit, h, takeException_gp]

theorem checkLimit_of_unknown (h : limitVerdict s.es off n.bytes a = .unknown) :
    checkLimit off n a s = .refused .operandWrapsOffsetRange := by
  rw [checkLimit, h]

theorem checkRange_of_long (hm : s.mode = .long64) : checkRange off n a s = checkCanonical off n a s := by
  rw [checkRange, hm]

theorem checkCanonical_of_first (hm : s.mode = .long64) (h : canonical s.laBits (s.lin off 0) = false) :
    checkCanonical off n a s = .fault (.gp (some 0) s.pc) := by
  rw [checkCanonical, if_pos h, takeException_gp_of_not_real (by simp [hm])]

theorem checkCanonical_of_later (h : canonical s.laBits (s.lin off 0) = true)
    (hlater : 2 ^ a.bits < off + n.bytes ∨ ∃ k < n.bytes, canonical s.laBits (s.lin off k) = false) :
    checkCanonical off n a s = .refused .operandWrapsOffsetRange := by
  rw [checkCanonical, if_neg (by simp [h]), if_pos]
  rcases hlater with hwrap | ⟨k, hk, hc⟩
  · exact .inl (by omega)
  · exact .inr (List.any_eq_true.2 ⟨k, List.mem_range.2 hk, by simp [hc]⟩)

/-! ## The read, when a check stops it -/

theorem readEs_of_checkNull_fault {f : Fault} (h : checkNull s = .fault f) : readEs off n a s = .fault f := by
  rw [readEs, h, andThen_fault]

theorem readEs_of_checkRange_fault {f : Fault} (hnull : checkNull s = .next ())
    (h : checkRange off n a s = .fault f) : readEs off n a s = .fault f := by
  rw [readEs, hnull, andThen_next, h, andThen_fault]

theorem readEs_of_checkRange_refused {q : Refusal} (hnull : checkNull s = .next ())
    (h : checkRange off n a s = .refused q) : readEs off n a s = .refused q := by
  rw [readEs, hnull, andThen_next, h, andThen_refused]

theorem readEs_of_checkIllegal_fault {f : Fault} (hnull : checkNull s = .next ())
    (hrange : checkRange off n a s = .next ()) (h : checkIllegal off n s = .fault f) :
    readEs off n a s = .fault f := by
  rw [readEs, hnull, andThen_next, hrange, andThen_next, h, andThen_fault]

end

/-! ## The instruction -/

/-- Settles O35: the NULL selector is the first check of the read. -/
theorem nullSelectorRaisesGp : Obligations.NullSelectorRaisesGp := fun _ _ hreads hm hnull =>
  exec_fault_of_read hreads (readEs_of_checkNull_fault (checkNull_of_null hm hnull))

/-- Settles O36: past the NULL check the verdict of the limit check decides. -/
theorem limitRaisesGp : Obligations.LimitRaisesGp := by
  intro i s hreads hm hnull
  have hpast := (checkNull_eq_next s).2 hnull
  constructor
  · intro hout
    refine exec_fault_of_read hreads (readEs_of_checkRange_fault hpast ?_)
    rw [checkRange_of_not_long hm, checkLimit_of_outside hout]
  · intro hunknown
    refine exec_refused_of_read hreads (readEs_of_checkRange_refused hpast ?_)
    rw [checkRange_of_not_long hm, checkLimit_of_unknown hunknown]

/-- Settles O37: in 64-bit mode no selector is checked, and canonical form decides. -/
theorem nonCanonicalRaisesGp : Obligations.NonCanonicalRaisesGp := by
  intro i s hreads hm
  have hpast := checkNull_of_long hm
  constructor
  · intro hfirst
    refine exec_fault_of_read hreads (readEs_of_checkRange_fault hpast ?_)
    rw [checkRange_of_long hm, checkCanonical_of_first hm hfirst]
  · intro hfirst hlater
    refine exec_refused_of_read hreads (readEs_of_checkRange_refused hpast ?_)
    rw [checkRange_of_long hm, checkCanonical_of_later hfirst hlater]

/-- Settles O38: with the NULL and limit checks passed, the illegal address stops the read. -/
theorem illegalAddressRaisesGp : Obligations.IllegalAddressRaisesGp := by
  intro i s hreads hm hnull hlimit hillegal
  have hpast := (checkNull_eq_next s).2 fun _ => hnull
  have hrange := (checkRange_eq_next _ _ _ s).2 ⟨hlimit, fun hlong => absurd hlong (ne_long_of_selector hm)⟩
  exact exec_fault_of_read hreads (readEs_of_checkIllegal_fault hpast hrange (checkIllegal_of_mem hm hillegal))

/-! ## ES in 64-bit mode -/

/-- The state with another ES. -/
def State.setEs (e : Segment) (s : State) : State :=
  { s with es := e }

theorem withEs_eq (e : Segment) (o : Host.Outcome State Fault Refusal) :
    withEs e o = andThen o fun t => .next (t.setEs e) := by
  cases o <;> rfl

theorem commutesWithUpdates_setEs (e : Segment) : CommutesWithUpdates (State.setEs e) where
  pc _ := rfl
  cnt _ _ := rfl
  flag _ _ := rfl
  setCnt _ _ _ := rfl
  skipped _ _ _ := rfl
  advance _ _ := rfl
  tick _ := rfl

section
variable {s : State} (e : Segment) (hm : s.mode = .long64)
include hm

theorem State.lin_setEs_of_long : (s.setEs e).lin = s.lin := by
  have hm' : (s.setEs e).mode = .long64 := hm
  funext off i
  rw [State.lin_of_long hm, State.lin_of_long hm']

theorem State.translations_setEs_of_long (off : Nat) (n : OpSize) :
    (s.setEs e).translations off n = s.translations off n := by
  rw [State.translations, State.lin_setEs_of_long e hm]
  rfl

theorem checkAlignAndPages_setEs_of_long (off : Nat) (n : OpSize) :
    checkAlignAndPages off n (s.setEs e) = checkAlignAndPages off n s := by
  have hac : (s.setEs e).acApplies off n = s.acApplies off n := by
    rw [State.acApplies, State.unaligned, State.lin_setEs_of_long e hm]
    rfl
  rw [checkAlignAndPages, hac, State.translations_setEs_of_long e hm]
  rfl

/-- Of ES the checked read uses the NULL bit, the limit and, through the linear address, the base: none of them in
64-bit mode (20_memory.md R54, R56). -/
theorem readEs_setEs_of_long (off : Nat) (n : OpSize) (a : AddrSize) :
    readEs off n a (s.setEs e) = readEs off n a s := by
  have hm' : (s.setEs e).mode = .long64 := hm
  have hnull : checkNull (s.setEs e) = checkNull s := by rw [checkNull_of_long hm', checkNull_of_long hm]
  have hrange : checkRange off n a (s.setEs e) = checkRange off n a s := by
    rw [checkRange_of_long hm', checkRange_of_long hm, checkCanonical, State.lin_setEs_of_long e hm]
    rfl
  have hillegal : checkIllegal off n (s.setEs e) = checkIllegal off n s := rfl
  have hoperand : (s.setEs e).operand off n = s.operand off n := by
    rw [State.operand, State.translations_setEs_of_long e hm]
    rfl
  rw [readEs, hnull, hrange, hillegal, checkAlignAndPages_setEs_of_long e hm, hoperand, readEs]

theorem scasExec_setEs_of_long (n : OpSize) (a : AddrSize) :
    scasExec n a (s.setEs e) = andThen (scasExec n a s) fun t => .next (t.setEs e) := by
  have hidx : (s.setEs e).idx a = s.idx a := rfl
  rw [scasExec, hidx, readEs_setEs_of_long e hm, scasExec]
  cases readEs (s.idx a).toNat n a s <;> rfl

end

/-- Settles O48: in 64-bit mode the read uses nothing of ES, and no update reads or writes it. -/
theorem longModeIgnoresEs : Obligations.LongModeIgnoresEs := fun i s e hm => by
  rw [withEs_eq]
  exact (commutesWithUpdates_setEs e).exec_eq (scasExec_setEs_of_long e hm i.opSize i.addrSize)

end Sys2Proof.Machine

/-! The round trip between bytes and instructions, in both directions. -/

namespace Sys2Proof

/-- Settles O1: the prefixes are taken off one by one, and the opcode byte selects the instruction's own size. -/
theorem decodeOfEncodeGivesInstr : Obligations.DecodeOfEncodeGivesInstr :=
  fun _ _ _ rest h => decode_encode_append rest h

/-! ## What the decoder accepts -/

/-- `bs` is the encoding of the well-formed no-operands instruction `i`, followed by `rest`. -/
structure StartsWithInstr (m : Mode) (d : CodeSize) (bs : List Byte) (i : Instr) (rest : List Byte) : Prop where
  bytes : bs = encode i ++ rest
  wellFormed : WellFormed m d i = true
  noOperands : i.noOperandsForm = i

section
variable {m : Mode} {d : CodeSize} {i : Instr} {rest : List Byte}

/-- An opcode byte that is accepted after admitted prefixes completes an instruction. -/
theorem startsWithInstr_of_decodeOpcode {p : Prefixes} {b : Byte} {bs : List Byte}
    (h : decodeOpcode m d p b bs = .ok i rest)
    (hkinds : distinctKinds p.legacy = true) (hrex : p.rex = none ∨ m = .long64) :
    StartsWithInstr m d (p.encode ++ b :: bs) i rest := by
  unfold decodeOpcode at h
  split at h
  case h_2 => cases h
  case h_1 n hop =>
    cases h
    have hopcode : n.opcode = b := opcode_of_opSizeOf hop
    obtain ⟨hsize, hrep, haddr, hprefixes, hform⟩ := instrOf_fields n p.rep (addrSizeOf m d p) p
    refine ⟨?_, ?_, hform⟩
    · simp [encode, hsize, hprefixes, hopcode]
    · rw [wellFormed_iff, hsize, hrep, haddr, hprefixes, hopcode]
      exact ⟨hkinds, hrex, rfl, rfl, hop⟩

/-- What is accepted after admitted legacy prefixes and REX completes an instruction. -/
theorem startsWithInstr_of_decodeAfterRex {legacy : List Prefix} {v : BitVec 4} {bs : List Byte}
    (h : decodeAfterRex m d legacy v bs = .ok i rest) (hkinds : distinctKinds legacy = true) (hm : m = .long64) :
    StartsWithInstr m d (Prefixes.encode ⟨legacy, some v⟩ ++ bs) i rest := by
  cases bs with
  | nil => cases h
  | cons b bs =>
    rw [decodeAfterRex] at h
    split at h
    · cases h
    · exact startsWithInstr_of_decodeOpcode h hkinds (.inr hm)

/-- The strengthening of O2 to the decoder's loop: `seen` is what stood before the bytes `bs`. -/
theorem startsWithInstr_of_decodeFrom {bs : List Byte} {seen : List Prefix} (hseen : distinctKinds seen = true)
    (h : decodeFrom m d seen bs = .ok i rest) :
    StartsWithInstr m d (seen.map Prefix.byte ++ bs) i rest := by
  induction bs generalizing seen with
  | nil => cases h
  | cons b bs ih =>
    unfold decodeFrom at h
    split at h
    case h_1 p hp =>
      split at h
      · cases h
      · rename_i hnew
        have hkinds : distinctKinds (seen ++ [p]) = true := by simp [distinctKinds_append_singleton, hseen, hnew]
        simpa [byte_of_legacyPrefix? hp] using ih hkinds h
    case h_2 =>
      split at h
      case isTrue hrex =>
        obtain ⟨hm, hrexByte⟩ := hrex
        simpa [Prefixes.encode, rexByte_of_isRexByte hrexByte] using startsWithInstr_of_decodeAfterRex h hseen hm
      case isFalse =>
        simpa [Prefixes.encode] using startsWithInstr_of_decodeOpcode h hseen (.inl rfl)

theorem startsWithInstr_of_decode {bs : List Byte} (h : decode m d bs = .ok i rest) :
    StartsWithInstr m d bs i rest :=
  startsWithInstr_of_decodeFrom rfl h

end

/-- Settles O2: by induction on the bytes, for the decoder's loop with the prefixes it has seen. -/
theorem encodeOfDecodeGivesBytes : Obligations.EncodeOfDecodeGivesBytes := fun _ _ _ _ _ h =>
  have hi := startsWithInstr_of_decode h
  ⟨hi.bytes, hi.wellFormed, hi.noOperands⟩

end Sys2Proof

/-! What the decoder refuses. -/

namespace Sys2Proof

open Machine (AtMostOneOfEachKind)

/-! ## Admitted legacy prefixes -/

theorem count_map_kind (ps : List Prefix) :
    (ps.map Prefix.kind).count 0 = ps.count .lock
    ∧ (ps.map Prefix.kind).count 1 = ps.count .repne + ps.count .repe
    ∧ (ps.map Prefix.kind).count 2 = ps.count (.seg .es) + ps.count (.seg .cs) + ps.count (.seg .ss)
        + ps.count (.seg .ds) + ps.count (.seg .fs) + ps.count (.seg .gs)
    ∧ (ps.map Prefix.kind).count 3 = ps.count .opSize
    ∧ (ps.map Prefix.kind).count 4 = ps.count .addrSize := by
  induction ps with
  | nil => exact ⟨rfl, rfl, rfl, rfl, rfl⟩
  | cons p ps ih =>
    obtain ⟨hlock, hrep, hseg, h66, h67⟩ := ih
    cases p with
    | seg r => cases r <;> simp [Prefix.kind, hlock, hrep, hseg, h66, h67] <;> omega
    | _ => simp [Prefix.kind, hlock, hrep, hseg, h66, h67] <;> omega

/-- The decoder's check is the rule of 30_encoding.md R92. -/
theorem distinctKinds_iff (ps : List Prefix) : distinctKinds ps = true ↔ AtMostOneOfEachKind ps := by
  obtain ⟨hlock, hrep, hseg, h66, h67⟩ := count_map_kind ps
  rw [distinctKinds_iff_nodup, List.nodup_iff_count_le_one]
  unfold AtMostOneOfEachKind
  rw [← hlock, ← hrep, ← hseg, ← h66, ← h67]
  constructor
  · intro h
    exact ⟨h 0, h 3, h 4, h 1, h 2⟩
  · rintro ⟨h0, h3, h4, h1, h2⟩ k
    fin_cases k <;> assumption

theorem decode_legacy {ps : List Prefix} (m : Mode) (d : CodeSize) (rest : List Byte) (h : AtMostOneOfEachKind ps) :
    decode m d (ps.map Prefix.byte ++ rest) = decodeFrom m d ps rest :=
  decodeFrom_legacy m d [] ps rest ((distinctKinds_iff ps).2 h)

/-- The decoder's loop stops at the second of two prefixes of one kind. -/
theorem decodeFrom_legacy_of_not_distinctKinds (m : Mode) (d : CodeSize) {seen ps : List Prefix} (rest : List Byte)
    (hseen : distinctKinds seen = true) (h : distinctKinds (seen ++ ps) = false) :
    decodeFrom m d seen (ps.map Prefix.byte ++ rest) = .error .prefixCombination := by
  induction ps generalizing seen with
  | nil => simp [hseen] at h
  | cons p ps ih =>
    rw [List.map_cons, List.cons_append, decodeFrom]
    simp only [legacyPrefix?_byte]
    split
    · rfl
    · rename_i hnew
      refine ih ?_ (by simpa using h)
      simp [distinctKinds_append_singleton, hseen, hnew]

/-- Settles O4: the decoder's loop stops at the second of two prefixes of one kind, before it looks at what
follows. -/
theorem twoPrefixesOfOneKindRefused : Obligations.TwoPrefixesOfOneKindRefused := fun m d ps rest h =>
  decodeFrom_legacy_of_not_distinctKinds m d rest rfl
    (Bool.eq_false_iff.2 fun hkinds => h ((distinctKinds_iff ps).1 hkinds))

/-! ## The byte after the legacy prefixes -/

theorem decodeFrom_rexByte (d : CodeSize) (seen : List Prefix) (v : BitVec 4) (bs : List Byte) :
    decodeFrom .long64 d seen (rexByte v :: bs) = decodeAfterRex .long64 d seen v bs := by
  simp [decodeFrom]

theorem decodeFrom_of_not_prefix {m : Mode} (d : CodeSize) (seen : List Prefix) {b : Byte} (bs : List Byte)
    (hlegacy : legacyPrefix? b = none) (hrex : m = .long64 → isRexByte b = false) :
    decodeFrom m d seen (b :: bs) = decodeOpcode m d ⟨seen, none⟩ b bs := by
  rw [decodeFrom, hlegacy]
  exact if_neg fun ⟨hm, hb⟩ => by simp [hrex hm] at hb

theorem decodeAfterRex_of_prefix (m : Mode) (d : CodeSize) (legacy : List Prefix) (v : BitVec 4) {b : Byte}
    (bs : List Byte) (h : (legacyPrefix? b).isSome = true ∨ isRexByte b = true) :
    decodeAfterRex m d legacy v (b :: bs) = .error .prefixCombination :=
  if_pos (Bool.or_eq_true_iff.2 h)

theorem decodeAfterRex_of_not_prefix (m : Mode) (d : CodeSize) (legacy : List Prefix) (v : BitVec 4) {b : Byte}
    (bs : List Byte) (hlegacy : legacyPrefix? b = none) (hrex : isRexByte b = false) :
    decodeAfterRex m d legacy v (b :: bs) = decodeOpcode m d ⟨legacy, some v⟩ b bs := by
  simp [decodeAfterRex, hlegacy, hrex]

theorem decodeOpcode_of_ne (m : Mode) (d : CodeSize) (p : Prefixes) {b : Byte} (bs : List Byte)
    (hAE : b ≠ opcodeAE) (hAF : b ≠ opcodeAF) : decodeOpcode m d p b bs = .error .notScas := by
  simp [decodeOpcode, opSizeOf, hAE, hAF]

/-- Settles O5: after REX the decoder admits an opcode byte alone. -/
theorem rexNotLastRefused : Obligations.RexNotLastRefused := by
  intro d ps wrxb b rest hps hb
  rw [decode_legacy .long64 d _ hps, decodeFrom_rexByte]
  apply decodeAfterRex_of_prefix
  rcases hb with ⟨p, rfl⟩ | ⟨v, rfl⟩
  · exact .inl (by simp)
  · exact .inr (isRexByte_rexByte v)

/-- Settles O6: outside 64-bit mode the REX bytes are opcode bytes, of which none is AE or AF. -/
theorem rexByteOutside64BitModeRefused : Obligations.RexByteOutside64BitModeRefused := by
  intro m d ps b rest hm hps hlo hhi
  have hb : rexByte (b.extractLsb' 0 4) = b := rexByte_of_isRexByte ((isRexByte_iff b).2 ⟨hlo, hhi⟩)
  have hlegacy : legacyPrefix? b = none := hb ▸ legacyPrefix?_rexByte _
  rw [decode_legacy m d _ hps, decodeFrom_of_not_prefix d ps rest hlegacy fun h => absurd h hm]
  apply decodeOpcode_of_ne <;> rintro rfl <;> exact absurd hhi (by decide)

/-- Settles O7: a byte that is none of them ends the prefixes, with REX or without, and is taken for the opcode. -/
theorem otherOpcodeRefused : Obligations.OtherOpcodeRefused := by
  intro m d ps rex b rest hps hmode hbyte hrange hAE hAF
  have hlegacy : legacyPrefix? b = none := legacyPrefix?_eq_none.2 hbyte
  have hrex (hm : m = .long64) : isRexByte b = false := by
    rw [Bool.eq_false_iff, ne_eq, isRexByte_iff]
    have := hrange hm
    omega
  rw [List.append_assoc, decode_legacy m d _ hps]
  cases rex with
  | none =>
    exact (decodeFrom_of_not_prefix d ps rest hlegacy hrex).trans (decodeOpcode_of_ne m d _ rest hAE hAF)
  | some v =>
    obtain rfl : m = .long64 := hmode (by simp)
    calc decodeFrom .long64 d ps (rexByte v :: b :: rest)
      _ = decodeAfterRex .long64 d ps v (b :: rest) := decodeFrom_rexByte d ps v _
      _ = decodeOpcode .long64 d ⟨ps, some v⟩ b rest := decodeAfterRex_of_not_prefix _ d ps v rest hlegacy (hrex rfl)
      _ = .error .notScas := decodeOpcode_of_ne _ d _ rest hAE hAF

end Sys2Proof

/-! The sizes and the length of a decoded instruction. -/

namespace Sys2Proof

/-! ## The prefixes that are present -/

theorem Prefixes.has66_iff (p : Prefixes) : p.has66 = true ↔ .opSize ∈ p.legacy :=
  List.contains_iff_mem

theorem Prefixes.has67_iff (p : Prefixes) : p.has67 = true ↔ .addrSize ∈ p.legacy :=
  List.contains_iff_mem

theorem Prefixes.hasRexW_iff (p : Prefixes) : p.hasRexW = true ↔ ∃ v ∈ p.rex, v.getLsbD 3 = true := by
  simp [Prefixes.hasRexW, Option.any_eq_true, rexW]

/-! ## The sizes -/

theorem addrSizeOf_long (d : CodeSize) (p : Prefixes) :
    addrSizeOf .long64 d p = if p.has67 then .a32 else .a64 := rfl

theorem addrSizeOf_of_ne_long {m : Mode} (h : m ≠ .long64) (d : CodeSize) (p : Prefixes) :
    addrSizeOf m d p = if p.has67 then d.other.addrSize else d.addrSize := by
  cases m with
  | long64 => exact absurd rfl h
  | _ => rfl

theorem opSizeOfAF_long (d : CodeSize) (p : Prefixes) :
    opSizeOfAF .long64 d p = if p.hasRexW then .b64 else if p.has66 then .b16 else .b32 := rfl

theorem opSizeOfAF_of_ne_long {m : Mode} (h : m ≠ .long64) (d : CodeSize) (p : Prefixes) :
    opSizeOfAF m d p = if p.has66 then d.other.opSize else d.opSize := by
  cases m with
  | long64 => exact absurd rfl h
  | _ => rfl

/-- Settles O8: a decoded instruction is well-formed, so its address size is the one selected. -/
theorem addressSizeSelected : Obligations.AddressSizeSelected := by
  intro m d bs rest i h
  obtain ⟨-, -, -, haddr, -⟩ := (wellFormed_iff m d i).1 (startsWithInstr_of_decode h).wellFormed
  simp only [haddr, ← Prefixes.has67_iff]
  refine ⟨?_, ?_, ?_⟩
  · rintro rfl
    exact addrSizeOf_long d i.prefixes
  · rintro hm rfl
    exact addrSizeOf_of_ne_long hm .d16 i.prefixes
  · rintro hm rfl
    exact addrSizeOf_of_ne_long hm .d32 i.prefixes

/-- The opcode byte of an instruction is the last of its bytes (30_encoding.md R80). -/
theorem eq_opcode_of_append_eq_encode {pre rest : List Byte} {op : Byte} {i : Instr}
    (h : pre ++ op :: rest = encode i ++ rest) : op = i.opSize.opcode := by
  have h' : (pre ++ [op]) ++ rest = encode i ++ rest := by simpa using h
  have hlast : pre ++ [op] = i.prefixes.encode ++ [i.opSize.opcode] := List.append_cancel_right h'
  simpa using (List.append_inj' hlast rfl).2

/-- The size of a well-formed instruction is 8 under AE and the one selected under AF. -/
theorem opSize_of_wellFormed {m : Mode} {d : CodeSize} {i : Instr} (h : WellFormed m d i = true) :
    (i.opSize.opcode = opcodeAE ∧ i.opSize = .b8)
    ∨ (i.opSize.opcode = opcodeAF ∧ i.opSize = opSizeOfAF m d i.prefixes) := by
  obtain ⟨-, -, -, -, hop⟩ := (wellFormed_iff m d i).1 h
  have hAF (hopcode : i.opSize.opcode = opcodeAF) : i.opSize = opSizeOfAF m d i.prefixes := by
    rw [hopcode] at hop
    exact (Option.some.inj hop).symm
  generalize i.opSize = n at hAF ⊢
  cases n with
  | b8 => exact .inl ⟨rfl, rfl⟩
  | _ => exact .inr ⟨rfl, hAF rfl⟩

/-- Settles O9: the bytes end in the opcode of the decoded instruction, under which its size is the one selected. -/
theorem operandSizeSelected : Obligations.OperandSizeSelected := by
  intro m d pre rest op i h
  obtain ⟨hbytes, hwf, -⟩ := startsWithInstr_of_decode h
  obtain rfl := eq_opcode_of_append_eq_encode hbytes
  refine (opSize_of_wellFormed hwf).imp_right fun ⟨hopcode, hsize⟩ => ⟨hopcode, ?_⟩
  simp only [hsize, ← Prefixes.has66_iff, ← Prefixes.hasRexW_iff]
  refine ⟨?_, ?_, ?_⟩
  · rintro rfl
    exact opSizeOfAF_long d i.prefixes
  · rintro hm rfl
    exact opSizeOfAF_of_ne_long hm .d16 i.prefixes
  · rintro hm rfl
    exact opSizeOfAF_of_ne_long hm .d32 i.prefixes

/-! ## The length -/

theorem Prefixes.length_eq_length_encode (p : Prefixes) : p.length = p.encode.length + 1 := by
  obtain ⟨legacy, rex⟩ := p
  cases rex <;> simp [Prefixes.length, Prefixes.encode]

theorem Prefixes.length_le (p : Prefixes) : p.length ≤ p.legacy.length + 2 := by
  rw [Prefixes.length]
  split <;> omega

/-- Of its kind LOCK is the only one. -/
theorem distinctKinds_lock_cons {ps : List Prefix} (h : distinctKinds ps = true) (hlock : .lock ∉ ps) :
    distinctKinds (.lock :: ps) = true := by
  have hkind : ps.any Prefix.lock.sameKind = false := by
    rw [List.any_eq_false]
    rintro p hp hsame
    cases p with
    | lock => exact hlock hp
    | _ => cases hsame
  simp [distinctKinds, h, hkind]

/-- Settles O11: no byte is dropped, and admitted prefixes are REX and at most one legacy byte of each
kind. -/
theorem lengthOfDecodedInstr : Obligations.LengthOfDecodedInstr := by
  intro m d bs rest i h
  obtain ⟨hbytes, hwf, -⟩ := startsWithInstr_of_decode h
  obtain ⟨hkinds, -⟩ := (wellFormed_iff m d i).1 hwf
  have hlen := i.prefixes.length_eq_length_encode
  have hle := i.prefixes.length_le
  have hlegacy := length_le_of_distinctKinds hkinds
  refine ⟨?_, hlen, by omega, by omega, fun hlock => ?_⟩
  · rw [hbytes, List.length_append, Laws.EncodingShape.length_encode]
  · have hlegacy' := length_le_of_distinctKinds (distinctKinds_lock_cons hkinds hlock)
    rw [List.length_cons] at hlegacy'
    omega

/-! ## Bytes of the spec, and validity by mode -/

/-- Settles O3: the decoder computes each answer. -/
theorem specBytesDecode : Obligations.SpecBytesDecode := by
  unfold Obligations.SpecBytesDecode
  decide

theorem ne_b64_of_ne_long {m : Mode} (h : m ≠ .long64) (d : CodeSize) (p : Prefixes) : opSizeOfAF m d p ≠ .b64 := by
  rw [opSizeOfAF_of_ne_long h]
  cases d <;> split <;> simp [CodeSize.opSize, CodeSize.other]

/-- Settles O10: the forms without REX by mode and default size; a quadword is selected by REX.W alone, which occurs in
64-bit mode. -/
theorem validityByMode : Obligations.ValidityByMode := by
  refine ⟨fun m d => ⟨addrSizeOf m d ⟨[], none⟩, ?_⟩, fun m d => ⟨addrSizeOf m d ⟨[], none⟩, ?_⟩, fun d w hw => ?_, ?_⟩
  · exact decodeFrom_opcode m d [] .b8 []
  · cases m <;> cases d <;> decide
  · have hsize : opSizeOf .long64 d ⟨[], some w⟩ opcodeAF = some .b64 := by
      simp [opSizeOf, opcodeAE, opcodeAF, opSizeOfAF_long, Prefixes.hasRexW, hw]
    refine (decodeFrom_rexByte_opcode d [] w .b64 []).trans ?_
    rw [OpSize.opcode, decodeOpcode, hsize]
    rfl
  · intro m d bs i rest h hquad
    by_contra hm
    rcases opSize_of_wellFormed (startsWithInstr_of_decode h).wellFormed with ⟨-, hsize⟩ | ⟨-, hsize⟩
    · simp [hquad] at hsize
    · exact ne_b64_of_ne_long hm d i.prefixes (hsize.symm.trans hquad)

end Sys2Proof

/-! A segment override among the prefixes. -/

namespace Sys2Proof

section
variable (front back : List Prefix) (rex : Option (BitVec 4)) (g : SegReg)

/-! ## What the prefixes select -/

theorem contains_seg_insert {x : Prefix} (h : x ≠ .seg g) :
    (front ++ .seg g :: back).contains x = (front ++ back).contains x := by
  simp [h]

theorem Prefixes.hasLock_seg_insert :
    Prefixes.hasLock ⟨front ++ .seg g :: back, rex⟩ = Prefixes.hasLock ⟨front ++ back, rex⟩ :=
  contains_seg_insert front back g (by simp)

theorem Prefixes.has66_seg_insert :
    Prefixes.has66 ⟨front ++ .seg g :: back, rex⟩ = Prefixes.has66 ⟨front ++ back, rex⟩ :=
  contains_seg_insert front back g (by simp)

theorem Prefixes.has67_seg_insert :
    Prefixes.has67 ⟨front ++ .seg g :: back, rex⟩ = Prefixes.has67 ⟨front ++ back, rex⟩ :=
  contains_seg_insert front back g (by simp)

theorem Prefixes.hasRexW_seg_insert :
    Prefixes.hasRexW ⟨front ++ .seg g :: back, rex⟩ = Prefixes.hasRexW ⟨front ++ back, rex⟩ := rfl

theorem Prefixes.rep_seg_insert :
    Prefixes.rep ⟨front ++ .seg g :: back, rex⟩ = Prefixes.rep ⟨front ++ back, rex⟩ := by
  simp only [Prefixes.rep, contains_seg_insert front back g (x := .repe) (by simp),
    contains_seg_insert front back g (x := .repne) (by simp)]

theorem Prefixes.length_seg_insert :
    Prefixes.length ⟨front ++ .seg g :: back, rex⟩ = Prefixes.length ⟨front ++ back, rex⟩ + 1 := by
  simp only [Prefixes.length, List.length_append, List.length_cons]
  omega

theorem addrSizeOf_seg_insert (m : Mode) (d : CodeSize) :
    addrSizeOf m d ⟨front ++ .seg g :: back, rex⟩ = addrSizeOf m d ⟨front ++ back, rex⟩ := by
  simp only [addrSizeOf, Prefixes.has67_seg_insert]

theorem opSizeOf_seg_insert (m : Mode) (d : CodeSize) (op : Byte) :
    opSizeOf m d ⟨front ++ .seg g :: back, rex⟩ op = opSizeOf m d ⟨front ++ back, rex⟩ op := by
  simp only [opSizeOf, opSizeOfAF, Prefixes.has66_seg_insert, Prefixes.hasRexW_seg_insert]

variable {front back}

/-- Of the legacy prefixes only the overrides are of an override's kind. -/
theorem distinctKinds_seg_insert (h : distinctKinds (front ++ back) = true)
    (hnone : ∀ r, Prefix.seg r ∉ front ++ back) : distinctKinds (front ++ .seg g :: back) = true := by
  rw [distinctKinds_iff_nodup] at h ⊢
  have hkind : (Prefix.seg g).kind ∉ (front ++ back).map Prefix.kind := by
    rw [List.mem_map]
    rintro ⟨p, hp, hk⟩
    cases p with
    | seg r => exact hnone r hp
    | _ => simp [Prefix.kind] at hk
  rw [List.map_append] at h hkind ⊢
  exact List.nodup_middle.2 (List.nodup_cons.2 ⟨hkind, h⟩)

theorem wellFormed_seg_insert {m : Mode} {d : CodeSize} {n : OpSize} {r : Option Rep} {a : AddrSize}
    {rex : Option (BitVec 4)} (h : WellFormed m d (instrOf n r a ⟨front ++ back, rex⟩) = true)
    (hnone : ∀ r, Prefix.seg r ∉ front ++ back) :
    WellFormed m d (instrOf n r a ⟨front ++ .seg g :: back, rex⟩) = true := by
  have hfields (p : Prefixes) := instrOf_fields n r a p
  simp only [wellFormed_iff, hfields, addrSizeOf_seg_insert, opSizeOf_seg_insert, Prefixes.rep_seg_insert] at h ⊢
  obtain ⟨hkinds, hrest⟩ := h
  exact ⟨distinctKinds_seg_insert g hkinds hnone, hrest⟩

end

end Sys2Proof

namespace Sys2Proof.Machine

/-! ## What the prefixes change in an execution -/

theorem exec_instrOf_none (n : OpSize) (a : AddrSize) (p : Prefixes) (s : State) :
    exec (instrOf n none a p) s = scas n a p s := by
  cases n <;> rfl

theorem exec_instrOf_some (n : OpSize) (r : Rep) (a : AddrSize) (p : Prefixes) (s : State) :
    exec (instrOf n (some r) a p) s = repScas n r a p s := by
  cases r <;> cases n <;> rfl

theorem SameButPc.refl (o : Host.Outcome State Fault Refusal) : SameButPc o o := by
  cases o <;> rfl

theorem SameButPc.andThen_next {f g : State → State} (o : Host.Outcome State Fault Refusal)
    (h : ∀ t, SameButPc (.next (f t)) (.next (g t))) :
    SameButPc (andThen o fun t => .next (f t)) (andThen o fun t => .next (g t)) := by
  cases o with
  | next t => exact h t
  | fault f => rfl
  | refused q => rfl

theorem SameButPc.unlessLocked {p q : Prefixes} (hlock : q.hasLock = p.hasLock) (s : State)
    {o o' : Host.Outcome State Fault Refusal} (h : SameButPc o o') :
    SameButPc (unlessLocked p s o) (unlessLocked q s o') := by
  cases hl : p.hasLock with
  | true => rw [unlessLocked_of_lock hl, unlessLocked_of_lock (hlock.trans hl)]; exact .refl _
  | false => rwa [unlessLocked_of_not_lock hl, unlessLocked_of_not_lock (hlock.trans hl)]

theorem sameButPc_advance (s : State) (len len' : Nat) :
    SameButPc (.next (s.advance len)) (.next (s.advance len')) := rfl

theorem sameButPc_iterated (s : State) (a : AddrSize) (r : Rep) (len len' : Nat) :
    SameButPc (.next (s.iterated a r len)) (.next (s.iterated a r len')) := by
  simp only [State.iterated]
  split
  · exact sameButPc_advance _ len len'
  · exact .refl _

/-- Of the prefixes an execution uses LOCK, and their number for `pc` alone. -/
theorem sameButPc_exec_instrOf (n : OpSize) (r : Option Rep) (a : AddrSize) {p q : Prefixes}
    (hlock : q.hasLock = p.hasLock) (s : State) :
    SameButPc (exec (instrOf n r a p) s) (exec (instrOf n r a q) s) := by
  cases r with
  | none =>
    rw [exec_instrOf_none, exec_instrOf_none]
    exact .unlessLocked hlock s (.andThen_next _ fun t => sameButPc_advance t _ _)
  | some r =>
    rw [exec_instrOf_some, exec_instrOf_some]
    refine .unlessLocked hlock s ?_
    split
    · exact sameButPc_advance _ _ _
    · exact .andThen_next _ fun t => sameButPc_iterated t a r _ _

/-- A scan one byte longer ends one byte further, below the top of the range. -/
theorem pc_of_scas_succ {n : OpSize} {a : AddrSize} {p q : Prefixes} {s t u : State}
    (hlen : q.length = p.length + 1) (htop : s.ip + q.length < 2 ^ s.ipBits)
    (ht : scas n a p s = .next t) (hu : scas n a q s = .next u) : u.pc = t.pc + 1 := by
  obtain ⟨-, -, rfl⟩ := (scas_eq_next n a p s t).1 ht
  obtain ⟨-, -, rfl⟩ := (scas_eq_next n a q s u).1 hu
  have hpc (len : Nat) (h : s.ip + len < 2 ^ s.ipBits) :
      ((s.compared n a (s.operand (s.idx a).toNat n)).advance len).pc = s.pc + BitVec.ofNat 64 len :=
    State.nextPc_of_lt (s.compared n a _) h
  rw [hpc _ htop, hpc p.length (by omega), hlen, BitVec.ofNat_add, ← BitVec.add_assoc]
  rfl

/-- Settles O25: an override changes nothing that the prefixes select, and an execution reads of the prefixes LOCK and
the length alone. -/
theorem segmentOverrideHasNoEffect : Obligations.SegmentOverrideHasNoEffect := by
  intro n r a front back rex g
  have hlock := Prefixes.hasLock_seg_insert front back rex g
  refine ⟨fun m d rest hwf hnone => ?_, sameButPc_exec_instrOf n r a hlock, ?_⟩
  · obtain ⟨-, -, -, -, hform⟩ := instrOf_fields n r a ⟨front ++ .seg g :: back, rex⟩
    rw [decode_encode_append rest (wellFormed_seg_insert g hwf hnone), hform]
  · rintro s t u rfl htop ht hu
    rw [exec_instrOf_none] at ht hu
    exact pc_of_scas_succ (Prefixes.length_seg_insert front back rex g) htop ht hu

end Sys2Proof.Machine

/-! The plain scans: their effect, the index update, the flags of the subtraction, and the memory
that is read. -/

namespace Sys2Proof.Machine

/-! ## Completion -/

/-- The next state of a scan has the flags, the index and the `pc` that 40_scas.md R110 gives, and keeps the rest. -/
theorem scanEffect_compared_advance (n : OpSize) (a : AddrSize) (len : Nat) (s : State) :
    ScanEffect n a len s ((s.compared n a (s.operand (s.idx a).toNat n)).advance len) where
  flags := flagsOfSub_of_eflags rfl
  index := viewWritten_writeView s.gpr.rdi a (s.steppedIdx n a)
  pc := pcPast_advance len rfl rfl rfl
  regs r hr := by rw [State.reg_advance, State.reg_compared s n a _ (by simpa using hr)]
  otherFlags := keepsOtherFlagBits_of_eflags rfl
  rest := (keepsRest_compared s n a _).trans (keepsRest_advance _ len)

theorem scas_completes {n : OpSize} {a : AddrSize} {p : Prefixes} {s : State} (hlock : p.hasLock = false)
    (hread : s.Readable (s.idx a).toNat n a) : ∃ t, scas n a p s = .next t ∧ ScanEffect n a p.length s t :=
  ⟨_, (scas_eq_next n a p s _).2 ⟨hlock, hread, rfl⟩, scanEffect_compared_advance n a p.length s⟩

/-- Settles O15: both spellings are the scan at byte size. -/
theorem scasbCompletes : Obligations.ScasbCompletes := fun _ _ _ hlock hread =>
  have ⟨t, ht, heffect⟩ := scas_completes hlock hread
  ⟨t, ht, ht, heffect⟩

/-- Settles O16: both spellings are the scan at word size. -/
theorem scaswCompletes : Obligations.ScaswCompletes := fun _ _ _ hlock hread =>
  have ⟨t, ht, heffect⟩ := scas_completes hlock hread
  ⟨t, ht, ht, heffect⟩

/-- Settles O17: both spellings are the scan at doubleword size. -/
theorem scasdCompletes : Obligations.ScasdCompletes := fun _ _ _ hlock hread =>
  have ⟨t, ht, heffect⟩ := scas_completes hlock hread
  ⟨t, ht, ht, heffect⟩

/-- Settles O18: both spellings are the scan at quadword size. -/
theorem scasqCompletes : Obligations.ScasqCompletes := fun _ _ _ hlock hread =>
  have ⟨t, ht, heffect⟩ := scas_completes hlock hread
  ⟨t, ht, ht, heffect⟩

/-! ## The index register -/

/-- An instruction that reads a readable operand completes, and has moved the index register. -/
theorem exec_steps_index {i : Instr} {s : State} (hreads : Reads i s)
    (hread : s.Readable (s.idx i.addrSize).toNat i.opSize i.addrSize) :
    ∃ t, exec i s = .next t ∧ IndexStepped s t i.opSize i.addrSize := by
  obtain ⟨hlock, hcount⟩ := hreads
  cases hrep : i.rep with
  | none =>
    rw [exec_plain hrep]
    obtain ⟨t, ht, heffect⟩ := scas_completes hlock hread
    exact ⟨t, ht, heffect.index⟩
  | some r =>
    have hcount : s.cnt i.addrSize ≠ 0 := hcount.resolve_left (by simp [hrep])
    rw [exec_repeated hrep]
    refine ⟨_, (repScas_eq_next _ r _ _ s _).2 ⟨hlock, .inr ⟨hcount, hread, rfl⟩⟩, ?_⟩
    rw [IndexStepped, State.iterated_gpr_rdi]
    exact viewWritten_writeView s.gpr.rdi i.addrSize (s.steppedIdx i.opSize i.addrSize)

theorem bytes_lt_two_pow_bits (n : OpSize) (a : AddrSize) : n.bytes < 2 ^ a.bits := by
  cases n <;> cases a <;> decide

/-- The stepped index register as a number: the sum or the difference modulo `2^A` (40_scas.md R120). -/
theorem State.toNat_steppedIdx (s : State) (n : OpSize) (a : AddrSize) :
    (s.steppedIdx n a).toNat =
      (if s.flag .df = false then (s.idx a).toNat + n.bytes else (s.idx a).toNat + 2 ^ a.bits - n.bytes)
        % 2 ^ a.bits := by
  have hn := bytes_lt_two_pow_bits n a
  have hbytes : (BitVec.ofNat a.bits n.bytes).toNat = n.bytes := by rw [BitVec.toNat_ofNat, Nat.mod_eq_of_lt hn]
  rw [State.steppedIdx]
  split
  · rw [BitVec.toNat_add, hbytes]
  · rw [BitVec.toNat_sub, hbytes]
    congr 1
    omega

theorem ViewWritten.keeps_high {old new : BitVec 64} {a : AddrSize} {v : BitVec a.bits} (h : ViewWritten old new a v)
    (ha : a = .a16) : ∀ k, 16 ≤ k → new.getLsbD k = old.getLsbD k := by
  subst ha
  exact h.2

theorem ViewWritten.zeroes_high {old new : BitVec 64} {a : AddrSize} {v : BitVec a.bits} (h : ViewWritten old new a v)
    (ha : a = .a32) : ∀ k, 32 ≤ k → new.getLsbD k = false := by
  subst ha
  exact h.2

/-- Settles O26: the view is written with the stepped index register, whose value is the sum or the difference modulo
`2^A`. -/
theorem indexUpdate : Obligations.IndexUpdate := by
  intro i s hreads hread
  obtain ⟨t, ht, hindex⟩ := exec_steps_index hreads hread
  have hview : t.idx i.addrSize = s.steppedIdx i.opSize i.addrSize := hindex.1
  exact ⟨t, ht, by rw [hview, State.toNat_steppedIdx], hindex.keeps_high, hindex.zeroes_high⟩

/-! ## The flags of the subtraction -/

section
variable {w : Nat} (x y : BitVec w)

/-- Bit `k` of a difference differs from that of `x ^^^ y` exactly when bits `k-1` to `0` borrow. -/
theorem getLsbD_xor_xor_sub {k : Nat} (hk : k < w) :
    (x ^^^ y ^^^ (x - y)).getLsbD k = decide (x.toNat % 2 ^ k < y.toNat % 2 ^ k) := by
  have hadd : x - y + y = x := BitVec.sub_add_cancel x y
  have hbit : (x ^^^ y ^^^ (x - y)).getLsbD k = BitVec.carry k (x - y) y false := by
    have hx : x.getLsbD k = _ := hadd ▸ BitVec.getLsbD_add hk (x - y) y
    rw [BitVec.getLsbD_xor, BitVec.getLsbD_xor, hx]
    cases y.getLsbD k <;> cases (x - y).getLsbD k <;> simp
  have hlow : x.toNat % 2 ^ k = ((x - y).toNat % 2 ^ k + y.toNat % 2 ^ k) % 2 ^ k := by
    have hmod : x.toNat = ((x - y).toNat + y.toNat) % 2 ^ w := by rw [← BitVec.toNat_add, hadd]
    rw [hmod, Nat.mod_mod_of_dvd _ (Nat.pow_dvd_pow 2 hk.le), Nat.add_mod]
  have hd := Nat.mod_lt (x - y).toNat (Nat.two_pow_pos k)
  have he := Nat.mod_lt y.toNat (Nat.two_pow_pos k)
  rw [hbit, BitVec.carry, hlow, decide_eq_decide, Bool.toNat_false, Nat.add_zero]
  generalize (x - y).toNat % 2 ^ k = d at hd ⊢
  generalize y.toNat % 2 ^ k = e at he ⊢
  by_cases hcarry : 2 ^ k ≤ d + e
  · rw [Nat.mod_eq_sub_mod hcarry, Nat.mod_eq_of_lt (by omega)]
    omega
  · rw [Nat.mod_eq_of_lt (by omega)]
    omega

theorem subFlags_of : (subFlags x y).of = x.ssubOverflow y := by
  rw [BitVec.ssubOverflow_eq]
  simp only [subFlags]
  cases x.msb <;> cases y.msb <;> cases (x - y).msb <;> rfl

/-- The signed order (40_scas.md R111): with equal signs nothing overflows and the difference has the sign of the
outcome; with different signs the sign of `x` decides. -/
theorem subFlags_sf_ne_of_iff : (subFlags x y).sf ≠ (subFlags x y).of ↔ x.toInt < y.toInt := by
  by_cases hsign : x.msb = y.msb
  · have hno : x.ssubOverflow y = false := by
      rw [BitVec.ssubOverflow_eq, hsign]
      cases y.msb <;> rfl
    have hsub : (x - y).toInt = x.toInt - y.toInt := BitVec.toInt_sub_of_not_ssubOverflow (by simp [hno])
    rw [subFlags_of, hno]
    simp [subFlags, BitVec.msb_eq_toInt, hsub]
  · have hsf : (subFlags x y).sf ≠ (subFlags x y).of ↔ x.msb = true := by
      simp only [subFlags]
      revert hsign
      cases x.msb <;> cases y.msb <;> cases (x - y).msb <;> decide
    rw [BitVec.msb_eq_toInt, BitVec.msb_eq_toInt, decide_eq_decide] at hsign
    rw [hsf, BitVec.msb_eq_toInt, decide_eq_true_iff]
    omega

end

theorem four_lt_bits (n : OpSize) : 4 < n.bits := by
  cases n <;> decide

/-- Settles O27: the flags that a comparison writes, the borrow into bit 4, and the signed overflow and order. -/
theorem subtractionFlags : Obligations.SubtractionFlags := by
  intro n a b
  have h : FlagsOfSub a b (State.reset.setStatus (subFlags a b)) := flagsOfSub_of_eflags rfl
  obtain ⟨hcf, hof, hsf, hzf, haf, hpf⟩ := h
  simp only [State.flag_setStatus_cf, State.flag_setStatus_of, State.flag_setStatus_sf, State.flag_setStatus_zf,
    State.flag_setStatus_af, State.flag_setStatus_pf] at hcf hof hsf hzf haf hpf
  refine ⟨?_, hcf, hof, hsf, hzf, ?_, haf, ?_, hpf, ?_, subFlags_sf_ne_of_iff a b⟩
  · rw [BitVec.toNat_sub]
    congr 1
    omega
  · rw [hzf, decide_eq_decide]
    exact sub_eq_zero
  · exact haf.trans (getLsbD_xor_xor_sub a b (four_lt_bits n)).symm
  · rw [subFlags_of, BitVec.ssubOverflow, Bool.or_eq_true, decide_eq_true_iff, decide_eq_true_iff, or_comm]

/-! ## The memory that is read -/

/-- The state with another memory. -/
def State.setMem (m : List Host.Cell) (s : State) : State :=
  { s with mem := m }

theorem withMem_eq (m : List Host.Cell) (o : Host.Outcome State Fault Refusal) :
    withMem m o = andThen o fun t => .next (t.setMem m) := by
  cases o <;> rfl

theorem commutesWithUpdates_setMem (m : List Host.Cell) : CommutesWithUpdates (State.setMem m) where
  pc _ := rfl
  cnt _ _ := rfl
  flag _ _ := rfl
  setCnt _ _ _ := rfl
  skipped _ _ _ := rfl
  advance _ _ := rfl
  tick _ := rfl

theorem mem_physicals {s : State} {off : Nat} {n : OpSize} {x : Nat} (h : x ∈ physicals (s.translations off n)) :
    ∃ k < n.bytes, s.translate (s.lin off k) = .ok x := by
  simp only [physicals, State.translations, List.mem_filterMap, List.mem_map, List.mem_range] at h
  obtain ⟨_, ⟨k, hk, rfl⟩, hx⟩ := h
  refine ⟨k, hk, ?_⟩
  dsimp only at hx
  split at hx <;> simp_all

section
variable {s : State} {m : List Host.Cell} {off : Nat} {n : OpSize}
  (h : ∀ k < n.bytes, ∀ x, s.translate (s.lin off k) = .ok x → Memory.readByte m x = Memory.readByte s.mem x)
include h

/-- The operand is made of the bytes at the physical addresses of its bytes alone. -/
theorem State.operand_setMem : (s.setMem m).operand off n = s.operand off n := by
  have hbytes : (physicals (s.translations off n)).map (Memory.readByte m)
      = (physicals (s.translations off n)).map (Memory.readByte s.mem) :=
    List.map_congr_left fun x hx =>
      have ⟨k, hk, ht⟩ := mem_physicals hx
      h k hk x ht
  have htranslations : (s.setMem m).translations off n = s.translations off n := rfl
  have hmem : (s.setMem m).mem = m := rfl
  rw [State.operand, htranslations, hmem, hbytes, State.operand]

/-- No check of the read looks at memory. -/
theorem readEs_setMem (a : AddrSize) : readEs off n a (s.setMem m) = readEs off n a s := by
  rw [readEs, State.operand_setMem h]
  rfl

end

theorem scasExec_setMem {n : OpSize} {a : AddrSize} {s : State} {m : List Host.Cell}
    (h : ∀ k < n.bytes, ∀ x, s.translate (s.lin (s.idx a).toNat k) = .ok x →
      Memory.readByte m x = Memory.readByte s.mem x) :
    scasExec n a (s.setMem m) = andThen (scasExec n a s) fun t => .next (t.setMem m) := by
  have hidx : (s.setMem m).idx a = s.idx a := rfl
  rw [scasExec, hidx, readEs_setMem h, scasExec]
  cases readEs (s.idx a).toNat n a s <;> rfl

/-- Settles O50: the read uses the bytes of the operand alone, and no update reads or writes memory. -/
theorem onlyOperandBytesRead : Obligations.OnlyOperandBytesRead := fun i s m h => by
  rw [withMem_eq]
  exact (commutesWithUpdates_setMem m).exec_eq (scasExec_setMem h)

/-! ## The two spellings -/

/-- A quadword scan can be written in 64-bit mode only (30_encoding.md R93). -/
theorem long_of_wellFormed_b64 {m : Mode} {d : CodeSize} {i : Instr} (h : WellFormed m d i = true)
    (hsize : i.opSize = .b64) : m = .long64 := by
  by_contra hm
  rcases opSize_of_wellFormed h with ⟨-, hbyte⟩ | ⟨-, hselected⟩
  · simp [hsize] at hbyte
  · exact ne_b64_of_ne_long hm d i.prefixes (hselected.symm.trans hsize)

/-- Settles O24: the two constructors of a size have the same fields and the same meaning. -/
theorem spellingsAgree : Obligations.SpellingsAgree := by
  intro a p i j hmem
  have hlong : ∀ m d, j = .scasq a p → WellFormed m d j = true → m = .long64 := by
    rintro m d rfl hwf
    exact long_of_wellFormed_b64 hwf rfl
  simp only [List.mem_cons, List.not_mem_nil, or_false, Prod.mk.injEq] at hmem
  obtain ⟨rfl, rfl⟩ | ⟨rfl, rfl⟩ | ⟨rfl, rfl⟩ | ⟨rfl, rfl⟩ := hmem
  · exact ⟨rfl, fun _ _ => rfl, fun _ => rfl, fun _ => rfl, fun hne => absurd rfl hne, hlong⟩
  all_goals exact ⟨rfl, fun _ _ => rfl, fun _ => rfl, nofun, fun _ => rfl, hlong⟩

end Sys2Proof.Machine

/-! The repeated scans: one iteration, the zero count, and how a repetition is left. -/

namespace Sys2Proof.Machine

/-! ## One iteration -/

/-- The condition asks for another iteration exactly when it does not end the repetition (41_rep_scas.md R131). -/
theorem continues_iff_repEnds_eq_false (r : Rep) (t : State) : Continues r t ↔ t.repEnds r = false := by
  cases r <;> simp [Continues, State.repEnds]

theorem State.repEnds_congr {s t : State} (h : t.eflags = s.eflags) (r : Rep) : t.repEnds r = s.repEnds r := by
  cases r <;> simp only [State.repEnds, State.flag, h]

section
variable {s : State} {a : AddrSize} {r : Rep} (len : Nat)

theorem State.iterated_of_continues (hcount : s.cnt a - 1 ≠ 0) (hcond : s.repEnds r = false) :
    s.iterated a r len = (s.setCnt a (s.cnt a - 1)).tick := by
  have hends : (s.setCnt a (s.cnt a - 1)).repEnds r = s.repEnds r := State.repEnds_congr rfl r
  obtain ⟨-, h | h⟩ | ⟨h, -⟩ := s.iterated_cases a r len
  · exact absurd h hcount
  · rw [hends, hcond] at h
    cases h
  · exact h

theorem State.iterated_of_ends (h : s.cnt a - 1 = 0 ∨ s.repEnds r = true) :
    s.iterated a r len = (s.setCnt a (s.cnt a - 1)).advance len := by
  have hends : (s.setCnt a (s.cnt a - 1)).repEnds r = s.repEnds r := State.repEnds_congr rfl r
  obtain ⟨e, -⟩ | ⟨-, hcount, hcond⟩ := s.iterated_cases a r len
  · exact e
  · rw [hends] at hcond
    rcases h with h | h
    · exact absurd h hcount
    · rw [hcond] at h
      cases h

end

/-- The comparison, then the count, then the two tests: what the next state of an iteration is (41_rep_scas.md R132).
The comparison leaves the count and `pc` alone, and the count leaves the flags alone. -/
theorem iterationEffect_compared_iterated (n : OpSize) (r : Rep) (a : AddrSize) (len : Nat) (s : State) :
    IterationEffect n r a len s ((s.compared n a (s.operand (s.idx a).toNat n)).iterated a r len) := by
  set u := s.compared n a (s.operand (s.idx a).toNat n)
  have hcond : Continues r (u.iterated a r len) ↔ u.repEnds r = false := by
    rw [continues_iff_repEnds_eq_false, State.repEnds_congr (u.iterated_eflags a r len)]
  exact
    { flags := flagsOfSub_of_eflags (u.iterated_eflags a r len)
      index := by
        rw [IndexStepped, State.iterated_gpr_rdi]
        exact viewWritten_writeView s.gpr.rdi a (s.steppedIdx n a)
      count := by
        rw [State.iterated_gpr_rcx]
        exact viewWritten_writeView s.gpr.rcx a (s.cnt a - 1)
      pcStays := fun hcount hcontinues => by
        rw [State.iterated_of_continues (s := u) len hcount (hcond.1 hcontinues)]
        rfl
      pcPast := fun hends => by
        rw [hcond, Bool.not_eq_false] at hends
        rw [State.iterated_of_ends (s := u) len hends]
        exact pcPast_advance len rfl rfl rfl
      regs := fun x hx => by
        simp only [List.mem_cons, List.not_mem_nil, or_false, not_or] at hx
        obtain ⟨hrdi, hrcx⟩ := hx
        rw [State.reg_iterated u a r len hrcx, State.reg_compared s n a _ hrdi]
      otherFlags := keepsOtherFlagBits_of_eflags (u.iterated_eflags a r len)
      rest := (keepsRest_compared s n a _).trans (keepsRest_iterated u a r len) }

theorem repScas_iterates {n : OpSize} {r : Rep} {a : AddrSize} {p : Prefixes} {s : State} (hlock : p.hasLock = false)
    (hcount : s.cnt a ≠ 0) (hread : s.Readable (s.idx a).toNat n a) :
    ∃ t, repScas n r a p s = .next t ∧ IterationEffect n r a p.length s t :=
  ⟨_, (repScas_eq_next n r a p s _).2 ⟨hlock, .inr ⟨hcount, hread, rfl⟩⟩,
    iterationEffect_compared_iterated n r a p.length s⟩

/-- Settles O19: both prefixes are the iteration at byte size. -/
theorem repeatedScasbIterates : Obligations.RepeatedScasbIterates := fun _ _ _ hlock hcount hread =>
  ⟨repScas_iterates hlock hcount hread, repScas_iterates hlock hcount hread⟩

/-- Settles O20: both prefixes are the iteration at word size. -/
theorem repeatedScaswIterates : Obligations.RepeatedScaswIterates := fun _ _ _ hlock hcount hread =>
  ⟨repScas_iterates hlock hcount hread, repScas_iterates hlock hcount hread⟩

/-- Settles O21: both prefixes are the iteration at doubleword size. -/
theorem repeatedScasdIterates : Obligations.RepeatedScasdIterates := fun _ _ _ hlock hcount hread =>
  ⟨repScas_iterates hlock hcount hread, repScas_iterates hlock hcount hread⟩

/-- Settles O22: both prefixes are the iteration at quadword size. -/
theorem repeatedScasqIterates : Obligations.RepeatedScasqIterates := fun _ _ _ hlock hcount hread =>
  ⟨repScas_iterates hlock hcount hread, repScas_iterates hlock hcount hread⟩

/-! ## The zero count -/

/-- RCX is unspecified in its upper half alone, and there under a 32-bit address size in 64-bit mode alone. -/
theorem State.rcxAfterZeroCount_eq {s : State} {a : AddrSize} (h : ¬ (a = .a32 ∧ s.mode = .long64)) :
    s.rcxAfterZeroCount a = s.gpr.rcx := by
  unfold State.rcxAfterZeroCount
  split
  · exact absurd ⟨rfl, ‹_›⟩ h
  all_goals rfl

theorem State.rcxAfterZeroCount_low (s : State) (a : AddrSize) :
    (s.rcxAfterZeroCount a).setWidth 32 = s.gpr.rcx.setWidth 32 := by
  by_cases h : a = .a32 ∧ s.mode = .long64
  · obtain ⟨rfl, hm⟩ := h
    simp only [State.rcxAfterZeroCount, hm]
    exact BitVec.setWidth_append_eq_right
  · rw [State.rcxAfterZeroCount_eq h]

theorem zeroCountEffect_skipped (s : State) (a : AddrSize) (len : Nat) :
    ZeroCountEffect a len s (s.skipped a len) where
  eflags := rfl
  rcxLow := s.rcxAfterZeroCount_low a
  rcx := State.rcxAfterZeroCount_eq
  pc := pcPast_advance len rfl rfl rfl
  regs _ hr := State.reg_skipped s a len (by simpa using hr)
  rest := keepsRest_skipped s a len

/-- Settles O23: with a zero count the operand is not read, and the execution skips to the next instruction. -/
theorem zeroCountSkips : Obligations.ZeroCountSkips := by
  intro i s hrep hlock hcount
  obtain ⟨r, hr⟩ := Option.ne_none_iff_exists'.1 hrep
  rw [exec_repeated hr]
  exact ⟨_, (repScas_eq_next _ r _ _ s _).2 ⟨hlock, .inl ⟨hcount, rfl⟩⟩,
    zeroCountEffect_skipped s i.addrSize i.prefixes.length⟩

/-! ## How a repetition is left -/

theorem toNat_sub_one_add_one {w : Nat} {x : BitVec w} (h : x ≠ 0) : (x - 1).toNat + 1 = x.toNat := by
  have hx : x.toNat ≠ 0 := fun h0 => h (BitVec.eq_of_toNat_eq h0)
  have hone : (1 : BitVec w).toNat = 1 := BitVec.toNat_one (BitVec.length_pos_of_ne h)
  rw [BitVec.toNat_sub_of_le (by rw [BitVec.le_def]; omega)]
  omega

/-- A step of a repeated scan goes past the instruction, or stays and counts down to a count that is not yet zero
(41_rep_scas.md R134). -/
theorem repScas_advances_or_countsDown {n : OpSize} {r : Rep} {a : AddrSize} {p : Prefixes} {s t : State}
    (h : repScas n r a p s = .next t) :
    PcPast s t p.length ∨ (t.pc = s.pc ∧ (t.cnt a).toNat + 1 = (s.cnt a).toNat ∧ t.cnt a ≠ 0) := by
  obtain ⟨-, ⟨-, rfl⟩ | ⟨hcount, -, rfl⟩⟩ := (repScas_eq_next n r a p s t).1 h
  · exact .inl (zeroCountEffect_skipped s a p.length).pc
  · have heffect := iterationEffect_compared_iterated n r a p.length s
    generalize (s.compared n a _).iterated a r p.length = t at heffect
    have hcnt : t.cnt a = s.cnt a - 1 := heffect.count.1
    by_cases hends : s.cnt a - 1 = 0 ∨ ¬ Continues r t
    · exact .inl (heffect.pcPast hends)
    · rw [not_or, not_not] at hends
      obtain ⟨hleft, hcontinues⟩ := hends
      rw [hcnt]
      exact .inr ⟨heffect.pcStays hleft hcontinues, toNat_sub_one_add_one hcount, hleft⟩

/-- A step at `s` executes the repeated scan `i`, which ends below the top of the instruction-pointer range. -/
structure AtRepeatedScan (i : Instr) (s : State) : Prop where
  wellFormed : WellFormed s.mode s.csD i = true
  rep : i.rep ≠ none
  text : s.TextHolds (encode i)
  notEnded : s.endPc ≠ some s.pc
  belowTop : s.ip + i.prefixes.length < 2 ^ s.ipBits

/-- Nothing that the next step fetches depends on the scan state, but for `pc`. -/
theorem AtRepeatedScan.of_keepsRest {i : Instr} {s t : State} (h : AtRepeatedScan i s) (hrest : KeepsRest s t)
    (hpc : t.pc = s.pc) : AtRepeatedScan i t := by
  have hbits : t.ipBits = s.ipBits := State.ipBits_congr hrest.mode hrest.csD
  have hip : t.ip = s.ip := by rw [State.ip, hpc, hbits, State.ip]
  exact
    { wellFormed := by rw [hrest.mode, hrest.csD]; exact h.wellFormed
      rep := h.rep
      text := by simpa only [State.TextHolds, hip, hbits, hrest.text] using h.text
      notEnded := by rw [hrest.endPc, hpc]; exact h.notEnded
      belowTop := by rw [hip, hbits]; exact h.belowTop }

theorem exec_noOperandsForm (i : Instr) (s : State) : exec i.noOperandsForm s = exec i s := by
  cases i <;> rfl

/-- A step at a repeated scan that answers a next state leaves the instruction, or is at it again with the count 1
less. -/
theorem AtRepeatedScan.step_leaves_or_countsDown {i : Instr} {s t : State} (h : AtRepeatedScan i s)
    (hstep : step s = .next t) :
    t.pc = s.pc + BitVec.ofNat 64 i.prefixes.length
    ∨ (AtRepeatedScan i t ∧ t.pc = s.pc ∧ (t.cnt i.addrSize).toNat + 1 = (s.cnt i.addrSize).toNat
      ∧ t.cnt i.addrSize ≠ 0) := by
  obtain ⟨r, hr⟩ := Option.ne_none_iff_exists'.1 h.rep
  obtain ⟨-, -, hrest⟩ := stepWritesOnlyScanState s t hstep
  rw [stepRunsDecodedInstr s i h.wellFormed h.text h.notEnded, exec_noOperandsForm, exec_repeated hr] at hstep
  rcases repScas_advances_or_countsDown hstep with hpast | ⟨hpc, hcount⟩
  · rw [PcPast, if_pos h.belowTop] at hpast
    exact .inl hpast
  · exact .inr ⟨h.of_keepsRest hrest hpc, hpc, hcount⟩

theorem core_run_succ (k : Nat) (s : State) : core.run (k + 1) s = andThen (step s) (core.run k) := by
  rw [Host.Core.run.eq_2 core s k]
  change _ = andThen (core.step s) (core.run k)
  cases core.step s <;> rfl

/-- The run is past the instruction that ends before `pc`, or has stopped at a fault or a refusal. -/
def PassedOrStopped (pc : BitVec 64) (o : Host.Outcome State Fault Refusal) : Prop :=
  match o with
  | .next t => t.pc = pc
  | .fault _ => True
  | .refused _ => True

/-- By induction on the count: a step that neither stops nor leaves the instruction has counted down. -/
theorem AtRepeatedScan.exists_run_passedOrStopped {i : Instr} {s : State} (h : AtRepeatedScan i s) :
    ∃ k, 1 ≤ k ∧ k ≤ max 1 (s.cnt i.addrSize).toNat ∧
      PassedOrStopped (s.pc + BitVec.ofNat 64 i.prefixes.length) (core.run k s) := by
  induction hc : (s.cnt i.addrSize).toNat using Nat.strong_induction_on generalizing s with
  | _ c ih =>
    cases hstep : step s with
    | fault f => exact ⟨1, le_rfl, le_max_left 1 c, by rw [core_run_succ, hstep]; trivial⟩
    | refused q => exact ⟨1, le_rfl, le_max_left 1 c, by rw [core_run_succ, hstep]; trivial⟩
    | next t =>
      rcases h.step_leaves_or_countsDown hstep with hpast | ⟨hat, hpc, hcount, hne⟩
      · exact ⟨1, le_rfl, le_max_left 1 c, by rw [core_run_succ, hstep]; exact hpast⟩
      · obtain ⟨k, hk, hle, hleft⟩ := ih (t.cnt i.addrSize).toNat (by omega) hat rfl
        have hpos : (t.cnt i.addrSize).toNat ≠ 0 := fun h0 => hne (BitVec.eq_of_toNat_eq h0)
        refine ⟨k + 1, by omega, by omega, ?_⟩
        rw [core_run_succ, hstep, ← hpc]
        exact hleft

/-- Settles O47: a repeated scan counts down until it is left or stopped. -/
theorem repeatedScanIsLeft : Obligations.RepeatedScanIsLeft := fun _ _ hwf hrep htext hend htop =>
  (AtRepeatedScan.mk hwf hrep htext hend htop).exists_run_passedOrStopped

end Sys2Proof.Machine

/-! The exceptions: LOCK, alignment and paging, and what a fault of a step can be. -/

namespace Sys2Proof.Machine

/-! ## LOCK -/

/-- Settles O14: both shared operations look at LOCK before anything else. -/
theorem lockRaisesInvalidOpcode : Obligations.LockRaisesInvalidOpcode := by
  intro i s hmem
  have hlock : i.prefixes.hasLock = true := List.contains_iff_mem.2 hmem
  cases hrep : i.rep with
  | none =>
    rw [exec_plain hrep]
    exact unlessLocked_of_lock hlock
  | some r =>
    rw [exec_repeated hrep]
    exact unlessLocked_of_lock hlock

/-! ## What an instruction raises -/

/-- Everything an instruction can raise: #UD, or what the read of its operand can. -/
theorem exec_fault_cases {i : Instr} {s : State} {f : Fault} (h : exec i s = .fault f) :
    f = .ud s.pc ∨ f = .gp s.gpCode s.pc ∨ (s.AcRaised (s.idx i.addrSize).toNat i.opSize ∧ f = .ac 0 s.pc)
    ∨ ∃ k c, k < i.opSize.bytes ∧ s.translate (s.lin (s.idx i.addrSize).toNat k) = .pageFault c
      ∧ f = .pf c (s.lin (s.idx i.addrSize).toNat k) s.pc :=
  (exec_eq_fault h).imp_right readEs_eq_fault

/-- #AC is raised only where R57 of 20_memory.md has it. -/
theorem acRaised_of_exec_eq_ac {i : Instr} {s : State} {code : Nat} {pc : BitVec 64}
    (h : exec i s = .fault (.ac code pc)) : s.AcRaised (s.idx i.addrSize).toNat i.opSize := by
  obtain hf | hf | ⟨hac, -⟩ | ⟨_, _, -, -, hf⟩ := exec_fault_cases h
  · cases hf
  · cases hf
  · exact hac
  · cases hf

/-! ## Alignment -/

section
variable {s : State} {off : Nat} {n : OpSize}

/-- A byte reference is aligned at every address. -/
theorem not_acRaised_b8 : ¬ s.AcRaised off .b8 := fun ⟨_, hunaligned, _⟩ =>
  hunaligned (Nat.mod_one _)

theorem State.AcRaised.ne_real (h : s.AcRaised off n) : s.mode ≠ .real := by
  obtain ⟨-, -, hmode⟩ := h
  intro hm
  simp [hm] at hmode

theorem State.AcRaised.cpl_eq (h : s.AcRaised off n) (hm : s.mode ≠ .v86) : s.cpl = 3 := by
  obtain ⟨-, -, hmode⟩ := h
  exact (hmode.resolve_left hm).2

/-- When every byte translates, step 4 of the read raises #AC where it applies (20_memory.md R58). -/
theorem checkAlignAndPages_of_acRaised (hpages : s.PagesOk off n) (hac : s.AcRaised off n) :
    checkAlignAndPages off n s = .fault (.ac 0 s.pc) := by
  rw [checkAlignAndPages, (pageFaults_eq_nil s off n).2 hpages]
  exact if_pos ((s.acApplies_iff off n).2 hac)

/-- What step 4 of the read raises, when the segment checks pass, the read raises. -/
theorem readEs_of_checkAlignAndPages_fault {a : AddrSize} {f : Fault} (hseg : s.SegmentOk off n a)
    (h : checkAlignAndPages off n s = .fault f) : readEs off n a s = .fault f := by
  rw [readEs_of_segmentOk hseg, h, andThen_fault]

end

/-- Settles O39: #AC is raised only where it applies, and there when nothing before it stops the read and every byte
translates; it never applies to a byte or in real-address mode. -/
theorem alignmentCheckRaisedExactly : Obligations.AlignmentCheckRaisedExactly := by
  intro i s
  constructor
  · intro hreads hseg hpages
    constructor
    · exact acRaised_of_exec_eq_ac
    · intro hac
      exact exec_fault_of_read hreads
        (readEs_of_checkAlignAndPages_fault hseg (checkAlignAndPages_of_acRaised hpages hac))
  · intro hnever code pc h
    have hac := acRaised_of_exec_eq_ac h
    rcases hnever with hbyte | hreal
    · rw [hbyte] at hac
      exact not_acRaised_b8 hac
    · exact hac.ne_real hreal

/-! ## Paging -/

section
variable {s : State} {off : Nat} {n : OpSize}

/-- When some byte fails, step 4 of the read raises #AC, if it applies and goes first, or the reported page fault
(60_exceptions.md R159). -/
theorem checkAlignAndPages_of_pageFaults {f : Nat × BitVec 64} {fs : List (Nat × BitVec 64)}
    (h : pageFaults (s.translations off n) = f :: fs) :
    checkAlignAndPages off n s =
      if s.acApplies off n && Config.acBeforePf s.freeIndex then .fault (.ac 0 s.pc)
      else .fault (.pf (reportedFault f fs s.freeIndex).1 (reportedFault f fs s.freeIndex).2 s.pc) := by
  rw [checkAlignAndPages, h]
  rfl

/-- The page fault that is reported is that of a failing byte (60_exceptions.md R155). -/
theorem checkAlignAndPages_of_not_pagesOk (h : ¬ s.PagesOk off n) :
    (∃ k code, k < n.bytes ∧ s.translate (s.lin off k) = .pageFault code
      ∧ checkAlignAndPages off n s = .fault (.pf code (s.lin off k) s.pc))
    ∨ (s.AcRaised off n ∧ checkAlignAndPages off n s = .fault (.ac 0 s.pc)) := by
  obtain ⟨f, fs, hfaults⟩ := List.exists_cons_of_ne_nil (mt (pageFaults_eq_nil s off n).1 h)
  have hcheck := checkAlignAndPages_of_pageFaults hfaults
  split at hcheck
  · rename_i hfirst
    obtain ⟨hac, -⟩ := Bool.and_eq_true_iff.1 hfirst
    exact .inr ⟨(s.acApplies_iff off n).1 hac, hcheck⟩
  · have hmem := hfaults ▸ reportedFault_mem f fs s.freeIndex
    obtain ⟨k, hk, hlin, htranslate⟩ := (mem_pageFaults s off n _ _).1 hmem
    exact .inl ⟨k, _, hk, htranslate, hlin ▸ hcheck⟩

end

/-- Settles O40: past the segment checks the operand's failing bytes and its alignment decide. -/
theorem untranslatedRaisesPf : Obligations.UntranslatedRaisesPf := by
  intro i s hreads hseg hpages
  have hraise {f : Fault} (h : checkAlignAndPages (s.idx i.addrSize).toNat i.opSize s = .fault f) :
      exec i s = .fault f :=
    exec_fault_of_read hreads (readEs_of_checkAlignAndPages_fault hseg h)
  obtain ⟨k, code, hk, htranslate, hcheck⟩ | ⟨hac, hcheck⟩ := checkAlignAndPages_of_not_pagesOk hpages
  · exact .inl ⟨k, code, hk, htranslate, hraise hcheck⟩
  · exact .inr ⟨hac, hraise hcheck⟩

/-! ## The list of the mode -/

section
variable {s : State} {lin : BitVec 64} {code : Nat}

/-- In real-address mode every byte translates. -/
theorem ne_real_of_translate_eq_pageFault (h : s.translate lin = .pageFault code) : s.mode ≠ .real := by
  intro hm
  rw [State.translate_of_real hm] at h
  cases h

/-- A byte fails only where `Translate` lists a page fault for it: where it lists nothing it is the identity. -/
theorem lookupPage_of_translate_eq_pageFault (h : s.translate lin = .pageFault code) :
    lookupPage s.paging lin s.cpl = some (.pageFault code) := by
  rw [State.translate_of_not_real (ne_real_of_translate_eq_pageFault h)] at h
  cases hpage : lookupPage s.paging lin s.cpl with
  | none =>
    rw [hpage] at h
    cases h
  | some t =>
    rw [hpage] at h
    exact congrArg some h

end

/-- Settles O41: each fault that an instruction can raise is on the list of the mode. -/
theorem faultsAreThoseOfTheMode : Obligations.FaultsAreThoseOfTheMode := by
  intro s f hstep
  obtain ⟨i, hexec⟩ := step_eq_fault hstep
  obtain rfl | rfl | ⟨hac, rfl⟩ | ⟨k, code, -, htranslate, rfl⟩ := exec_fault_cases hexec
  · exact rfl
  · exact ⟨s.gpCode_eq, rfl⟩
  · exact ⟨hac.ne_real, hac.cpl_eq, hac.1, rfl, rfl⟩
  · exact ⟨ne_real_of_translate_eq_pageFault htranslate, lookupPage_of_translate_eq_pageFault htranslate, rfl⟩

end Sys2Proof.Machine

/-! Progress: each step passes its instruction or counts a repeated scan down. -/

namespace Sys2Proof.Machine

/-- A scan without a repeat prefix goes past the instruction (40_scas.md R122). -/
theorem pcPast_of_scas {n : OpSize} {a : AddrSize} {p : Prefixes} {s t : State} (h : scas n a p s = .next t) :
    PcPast s t p.length := by
  obtain ⟨-, -, rfl⟩ := (scas_eq_next n a p s t).1 h
  exact (scanEffect_compared_advance n a p.length s).pc

/-- Settles O46: the decoded instruction is a plain scan, which goes past itself, or a repeated one, which goes past
itself or counts down. -/
theorem stepAdvancesOrCountsDown : Obligations.StepAdvancesOrCountsDown := by
  intro s t hstep
  obtain ⟨i, rest, hdecode, -, hexec⟩ := step_eq_next hstep
  refine ⟨i, rest, hdecode, ?_⟩
  cases hrep : i.rep with
  | none =>
    rw [exec_plain hrep] at hexec
    exact .inl (pcPast_of_scas hexec)
  | some r =>
    rw [exec_repeated hrep] at hexec
    exact (repScas_advances_or_countsDown hexec).imp_right fun hcount => ⟨Option.some_ne_none r, hcount⟩

end Sys2Proof.Machine

/-! The state after reset. -/

namespace Sys2Proof.Machine

/-- The instruction pointer of reset is 16 bits wide (10_state.md R24, R36). -/
theorem State.reset_ipBits : State.reset.ipBits = 16 := rfl

theorem State.reset_pc_lt : State.reset.pc.toNat < 2 ^ State.reset.ipBits := by
  rw [State.reset_ipBits]
  decide

/-- Settles O44: the byte maps and the list of `Translate` are empty, `pc` is a value of 16 bits, `ES.top` is the
smaller of its two values, and the mode is not virtual-8086. -/
theorem resetHasInvariant : Obligations.ResetHasInvariant := by
  refine ⟨Memory.reset_wf, ?text, ?paging, State.reset_pc_lt, .inl ?top, fun hmode => ?cpl⟩
  case text => rfl
  case paging => rfl
  case top => rfl
  case cpl => cases hmode

/-- Settles O45: the fields as reset lists them, alignment checking off for CR0.AM = 0, and the identity translation of
real-address mode. -/
theorem resetValues : Obligations.ResetValues :=
  ⟨rfl, rfl, rfl, rfl, rfl, rfl, rfl, rfl, rfl, rfl, rfl, rfl, rfl, State.translate_of_real rfl⟩

end Sys2Proof.Machine
